-- ==== Sys2Proof/Word.lean ====
section
/-! DEFINITION. The widths of the spec: bytes of host memory, 32-bit stream and register words, 64-bit
addresses and data (00_scope.md R11, 20_memory.md R50). -/

namespace Sys2Proof

/-- One byte of host memory (R50). -/
abbrev Byte := BitVec 8

/-- A 32-bit word: a stream word, a register-file word or a header (R11, R20). -/
abbrev Word := BitVec 32

/-- A 64-bit byte address of host memory, or a 64-bit datum (R11, R35, R54). -/
abbrev DWord := BitVec 64

end Sys2Proof
end

