-- ==== Sys2Proof/Config.lean ====
section
/-! DEFINITION. The implementation parameters of 00_scope.md R11, each a named argument whose default is the
value the spec decides, the admissibility of memory (20_memory.md R52), and the one free value of the spec: the
register file's contents at reset (70_reset_and_hazards.md R261). -/

namespace Sys2Proof

/-- A range of byte addresses, `[base, base + size)`, that is NOT valid host memory (R52). -/
structure Hole where
  base : Nat
  size : Nat
deriving DecidableEq, Repr

/-- The parameters of R11, with the spec's defaults, and `MEM_ADMIT` of R52 given by the holes it leaves (none by
default: "The default `MEM_ADMIT` admits every address"). Assumption log 2 and 3. -/
structure Params where
  /-- `REG_FILE_WORDS` -/
  regFileWords : Nat := 0xD000
  /-- `CTX_BASE` -/
  ctxBase : Nat := 0xA000
  /-- `CTX_CAP` -/
  ctxCap : Nat := 0x2000
  /-- `SH_BASE` -/
  shBase : Nat := 0x2C00
  /-- `SH_CAP` -/
  shCap : Nat := 0x0400
  /-- `UC_BASE` -/
  ucBase : Nat := 0xC000
  /-- `UC_CAP` -/
  ucCap : Nat := 0x1000
  /-- `IX_MAX_SIZE` -/
  ixMaxSize : Nat := 0xA29E
  /-- `IX_INDEX_TYPE` -/
  ixIndexType : Nat := 0xA29F
  /-- `IX_BASE_LO` -/
  ixBaseLo : Nat := 0xA1FA
  /-- `IX_BASE_HI` -/
  ixBaseHi : Nat := 0xA1F9
  /-- `IX_DRAW_INITIATOR` -/
  ixDrawInitiator : Nat := 0xA1FC
  /-- `IX_NUM_INDICES` -/
  ixNumIndices : Nat := 0xC24C
  /-- `ADDR_HI_BITS` -/
  addrHiBits : Nat := 16
  /-- the complement of `MEM_ADMIT`, as a list of ranges -/
  holes : List Hole := []
deriving DecidableEq, Repr

/-- Every parameter at the default of R11 and R52. -/
def Params.standard : Params := {}

/-- `RF0` (R261): what a register-file word holds before any packet has written it. The spec says that it is
unspecified and that "a claim must not assume any value, zero included", so it has no body. Assumption log 1. -/
opaque Config.rf0 : Nat → BitVec 32

end Sys2Proof
end

