-- ==== Sys2Proof/Syntax.lean ====
section
/-! DEFINITION. The packets the decoder recognises: one constructor for each row of spec/opcode_table.json. A
packet as the dispatcher hands it to its handler is `Execute(h, count)` (40_dispatcher.md R102, R110): the opcode and
the payload word count come from the header, and the payload words `P(1) .. P(count)` are read from the stream by
the handler. Assumption log 5. -/

namespace Sys2Proof

/-- The three named regions of the register file (10_state.md R22). -/
inductive Region where
  | ctx | sh | uc
deriving DecidableEq, Repr

/-- The handler ids of 40_dispatcher.md R106. -/
inductive Handler where
  | nop
  | dispatchDirect
  | drawIndex2
  | indexType
  | drawIndexAuto
  | writeData
  | waitRegMem
  | eventWriteEop
  | eventWriteEos
  | dmaData
  | acquireMem
  | setReg (r : Region)
deriving DecidableEq, Repr

/-- A recognised packet; `count` is its number of payload words, 0 to 16383 (30_encoding.md R73). -/
inductive Instr where
  | nop (count : BitVec 14)
  | dispatchDirect (count : BitVec 14)
  | drawIndex2 (count : BitVec 14)
  | indexType (count : BitVec 14)
  | drawIndexAuto (count : BitVec 14)
  | writeData (count : BitVec 14)
  | waitRegMem (count : BitVec 14)
  | eventWriteEop (count : BitVec 14)
  | eventWriteEos (count : BitVec 14)
  | dmaData (count : BitVec 14)
  | acquireMem (count : BitVec 14)
  | setContextReg (count : BitVec 14)
  | setShReg (count : BitVec 14)
  | setUconfigReg (count : BitVec 14)
deriving DecidableEq, Repr

/-- The payload word count of a packet (00_scope.md R16). -/
def Instr.count : Instr → BitVec 14
  | .nop c => c
  | .dispatchDirect c => c
  | .drawIndex2 c => c
  | .indexType c => c
  | .drawIndexAuto c => c
  | .writeData c => c
  | .waitRegMem c => c
  | .eventWriteEop c => c
  | .eventWriteEos c => c
  | .dmaData c => c
  | .acquireMem c => c
  | .setContextReg c => c
  | .setShReg c => c
  | .setUconfigReg c => c

end Sys2Proof
end

