-- ==== Sys2Proof/WellFormed.lean ====
section
/-! DEFINITION. What the spec asks of a packet (30_encoding.md R91) and of the parameters (00_scope.md R11) before
the rest of it applies. Both are checks, not part of any meaning: a packet that is not well formed still has a
meaning (it raises `MalformedPacket`). -/

namespace Sys2Proof

/-- The minimum payload count of R91's table. -/
def Instr.minCount : Instr → Nat
  | .nop _ => 0
  | .dispatchDirect _ => 0
  | .drawIndex2 _ => 5
  | .indexType _ => 1
  | .drawIndexAuto _ => 2
  | .writeData _ => 0
  | .waitRegMem _ => 0
  | .eventWriteEop _ => 5
  | .eventWriteEos _ => 0
  | .dmaData _ => 0
  | .acquireMem _ => 0
  | .setContextReg _ => 1
  | .setShReg _ => 1
  | .setUconfigReg _ => 1

/-- A packet is well formed when it has the payload words its format needs (R91). -/
abbrev Instr.WellFormed (i : Instr) : Prop := i.minCount ≤ i.count.toNat

/-- Two ranges `[a, a + n)` and `[b, b + m)` have a common element. -/
abbrev rangesMeet (a n b m : Nat) : Prop := max a b < min (a + n) (b + m)

/-- Each region lies inside `[0, REG_FILE_WORDS)` (R11). -/
abbrev Params.RegionsInside (p : Params) : Prop :=
  p.ctxBase + p.ctxCap ≤ p.regFileWords ∧ p.shBase + p.shCap ≤ p.regFileWords ∧
    p.ucBase + p.ucCap ≤ p.regFileWords

/-- The three regions do not overlap (R11). -/
abbrev Params.RegionsApart (p : Params) : Prop :=
  ¬ rangesMeet p.ctxBase p.ctxCap p.shBase p.shCap ∧
    ¬ rangesMeet p.ctxBase p.ctxCap p.ucBase p.ucCap ∧
    ¬ rangesMeet p.shBase p.shCap p.ucBase p.ucCap

/-- The six draw-state indices, in the order of R11's table. -/
def Params.drawIndices (p : Params) : List Nat :=
  [p.ixMaxSize, p.ixIndexType, p.ixBaseLo, p.ixBaseHi, p.ixDrawInitiator, p.ixNumIndices]

/-- The six draw-state indices are distinct (R11). -/
abbrev Params.IndicesDistinct (p : Params) : Prop := p.drawIndices.Pairwise (· ≠ ·)

/-- The six draw-state indices lie inside `[0, REG_FILE_WORDS)` (R11). -/
abbrev Params.IndicesInside (p : Params) : Prop := ∀ i ∈ p.drawIndices, i < p.regFileWords

/-- `1 <= ADDR_HI_BITS <= 32` (R11). -/
abbrev Params.AddrHiBitsInRange (p : Params) : Prop := 1 ≤ p.addrHiBits ∧ p.addrHiBits ≤ 32

/-- Every constraint that R11 says "a model must check on its arguments". -/
abbrev Params.WellFormed (p : Params) : Prop :=
  p.RegionsInside ∧ p.RegionsApart ∧ p.IndicesDistinct ∧ p.IndicesInside ∧ p.AddrHiBitsInRange

end Sys2Proof
end

