-- ==== Sys2Proof/Decode.lean ====
section
/-! DEFINITION. The header parser, the routing table and the encoder (30_encoding.md, 40_dispatcher.md R103 to R107).
The decoder is total: every word, and every list of bytes, is a packet or is rejected by name. -/

namespace Sys2Proof

/-! ## Header fields (R71, R72, R73) -/

/-- `TYPE = hdr[31:30]` (R71). -/
def headerType (hdr : Word) : BitVec 2 := hdr.extractLsb' 30 2

/-- `COUNT_FIELD = hdr[29:16]` (R72). -/
def headerCountField (hdr : Word) : BitVec 14 := hdr.extractLsb' 16 14

/-- `OPCODE = hdr[15:8]` (R72). -/
def headerOpcode (hdr : Word) : BitVec 8 := hdr.extractLsb' 8 8

/-- `count = (COUNT_FIELD + 1) mod 2^14` (R73). -/
def headerCount (hdr : Word) : BitVec 14 := headerCountField hdr + 1#14

/-! ## Routing (R87, R106) -/

/-- One row of the opcode map. -/
structure OpcodeRow where
  opcode : BitVec 8
  handler : Handler
deriving DecidableEq, Repr

/-- The opcode map of R87 and R106, in the order of the table. -/
def opcodeTable : List OpcodeRow :=
  [⟨0x10#8, .nop⟩, ⟨0x15#8, .dispatchDirect⟩, ⟨0x27#8, .drawIndex2⟩, ⟨0x2A#8, .indexType⟩,
   ⟨0x2D#8, .drawIndexAuto⟩, ⟨0x37#8, .writeData⟩, ⟨0x3C#8, .waitRegMem⟩] ++
  [⟨0x47#8, .eventWriteEop⟩, ⟨0x48#8, .eventWriteEos⟩, ⟨0x50#8, .dmaData⟩, ⟨0x58#8, .acquireMem⟩,
   ⟨0x69#8, .setReg .ctx⟩, ⟨0x76#8, .setReg .sh⟩, ⟨0x79#8, .setReg .uc⟩]

/-- `Route(op)` of R106: total, and dependent on `op` alone. -/
def route (op : BitVec 8) : Option Handler :=
  (opcodeTable.find? (fun r => r.opcode == op)).map OpcodeRow.handler

/-- The packet a handler id and a count make. -/
def Handler.instr : Handler → BitVec 14 → Instr
  | .nop, c => .nop c
  | .dispatchDirect, c => .dispatchDirect c
  | .drawIndex2, c => .drawIndex2 c
  | .indexType, c => .indexType c
  | .drawIndexAuto, c => .drawIndexAuto c
  | .writeData, c => .writeData c
  | .waitRegMem, c => .waitRegMem c
  | .eventWriteEop, c => .eventWriteEop c
  | .eventWriteEos, c => .eventWriteEos c
  | .dmaData, c => .dmaData c
  | .acquireMem, c => .acquireMem c
  | .setReg .ctx, c => .setContextReg c
  | .setReg .sh, c => .setShReg c
  | .setReg .uc, c => .setUconfigReg c

/-- The handler id of a packet (R106), as its `Packet` event names it. -/
def Instr.handler : Instr → Handler
  | .nop _ => .nop
  | .dispatchDirect _ => .dispatchDirect
  | .drawIndex2 _ => .drawIndex2
  | .indexType _ => .indexType
  | .drawIndexAuto _ => .drawIndexAuto
  | .writeData _ => .writeData
  | .waitRegMem _ => .waitRegMem
  | .eventWriteEop _ => .eventWriteEop
  | .eventWriteEos _ => .eventWriteEos
  | .dmaData _ => .dmaData
  | .acquireMem _ => .acquireMem
  | .setContextReg _ => .setReg .ctx
  | .setShReg _ => .setReg .sh
  | .setUconfigReg _ => .setReg .uc

/-! ## The parse (R102, R103) -/

/-- Why a header is no packet. -/
inductive HeaderReject where
  /-- `TYPE` is 0, 1 or 2 (R104); no count is computed (R76). -/
  | unsupportedFamily (type : BitVec 2)
  /-- `Route(op) = none` (R107); the count is computed before routing (R105). -/
  | unknownOpcode (op : BitVec 8) (count : BitVec 14)
deriving DecidableEq, Repr

/-- The header parse and routing of R102, from the one header word. -/
def decodeHeader (hdr : Word) : Except HeaderReject Instr :=
  if headerType hdr = 3#2 then
    match route (headerOpcode hdr) with
    | some h => .ok (h.instr (headerCount hdr))
    | none => .error (.unknownOpcode (headerOpcode hdr) (headerCount hdr))
  else .error (.unsupportedFamily (headerType hdr))

/-- Four bytes, the one at the lowest address first, as a little-endian word (R53). -/
def wordOfBytes (b0 b1 b2 b3 : Byte) : Word := b3 ++ b2 ++ b1 ++ b0

/-- Why a list of bytes is no packet. -/
inductive BytesReject where
  /-- fewer than the four bytes of a header; the machine never meets it (R101) -/
  | truncated (n : Nat)
  | header (r : HeaderReject)
deriving DecidableEq, Repr

/-- The decoder on bytes, lowest address first. It reads the header's four bytes and none of the payload (R103). -/
def decode : List Byte → Except BytesReject Instr
  | b0 :: b1 :: b2 :: b3 :: _ =>
    match decodeHeader (wordOfBytes b0 b1 b2 b3) with
    | .ok i => .ok i
    | .error r => .error (.header r)
  | bs => .error (.truncated bs.length)

/-! ## The encoder (R86, R93, R94) -/

/-- The opcode number of a handler id (R87). -/
def Handler.opcode : Handler → BitVec 8
  | .nop => 0x10#8
  | .dispatchDirect => 0x15#8
  | .drawIndex2 => 0x27#8
  | .indexType => 0x2A#8
  | .drawIndexAuto => 0x2D#8
  | .writeData => 0x37#8
  | .waitRegMem => 0x3C#8
  | .eventWriteEop => 0x47#8
  | .eventWriteEos => 0x48#8
  | .dmaData => 0x50#8
  | .acquireMem => 0x58#8
  | .setReg .ctx => 0x69#8
  | .setReg .sh => 0x76#8
  | .setReg .uc => 0x79#8

/-- The opcode number of a packet. -/
def Instr.opcode (i : Instr) : BitVec 8 := i.handler.opcode

/-- `Header(op, count, low8)` of R86. -/
def makeHeader (op : BitVec 8) (count : BitVec 14) (low8 : BitVec 8) : Word :=
  0xC0000000#32 ||| ((count - 1#14).setWidth 32 <<< 16) ||| (op.setWidth 32 <<< 8) ||| low8.setWidth 32

/-- The canonical header word of a packet: the ignored bits [7:0] are 0 (R86). -/
def encode (i : Instr) : Word := makeHeader i.opcode i.count 0#8

/-- The first `n` bytes of a value, least significant first (R14, R53, R54). -/
def leBytes {w : Nat} (n : Nat) (v : BitVec w) : List Byte :=
  (List.range n).map fun i => v.extractLsb' (8 * i) 8

/-- A packet with its payload, as words: `MNEMONIC w1, ..., wN` of R93. -/
def assemble (h : Handler) (payload : List Word) : List Word :=
  encode (h.instr (BitVec.ofNat 14 payload.length)) :: payload

/-- Words as the bytes of a stream (R53). -/
def streamBytes (ws : List Word) : List Byte := ws.flatMap (leBytes 4)

/-- DW3 of format EOP, `(d << 29) | (i << 24) | a[47:32]` (R93). -/
def eopControl (addr : DWord) (dsel : BitVec 3) (isel : BitVec 2) : Word :=
  (dsel.setWidth 32 <<< 29) ||| (isel.setWidth 32 <<< 24) ||| (addr.extractLsb' 32 16).setWidth 32

/-- `EVENT_WRITE_EOP ev=e, addr=a, dsel=d, isel=i, data=v` (R93). -/
def assembleEop (ev : Word) (addr : DWord) (dsel : BitVec 3) (isel : BitVec 2) (v : DWord) : List Word :=
  assemble .eventWriteEop
    [ev, addr.extractLsb' 0 32, eopControl addr dsel isel, v.extractLsb' 0 32, v.extractLsb' 32 32]

/-- `SET_<region>_REG off=<k>, w0, w1, ...` (R93). -/
def assembleSetReg (r : Region) (off : Word) (data : List Word) : List Word :=
  assemble (.setReg r) (off :: data)

/-- `NOP_PAD` (R94). -/
def nopPad : List Word := assemble .nop []

/-- `NOP_N n` (R94). -/
def nopN (n : Nat) : List Word := assemble .nop (List.replicate n 0#32)

/-- `WB32 a, v` (R94). -/
def wb32 (a : DWord) (v : Word) : List Word := assembleEop 0#32 a 1#3 0#2 (v.setWidth 64)

/-- `WB32_IRQ a, v` (R94). -/
def wb32Irq (a : DWord) (v : Word) : List Word := assembleEop 0#32 a 1#3 2#2 (v.setWidth 64)

/-- `WB64 a, v` (R94). -/
def wb64 (a v : DWord) : List Word := assembleEop 0#32 a 2#3 0#2 v

/-- `WB64_IRQ a, v` (R94). -/
def wb64Irq (a v : DWord) : List Word := assembleEop 0#32 a 2#3 2#2 v

/-! ## The opcode table's words -/

/-- The bytes of an instruction whose bits are `w`, numbered as spec/opcode_table.json numbers them: `nbits` of them,
and zeros up to the four bytes of a header. -/
def tableBytes (nbits w : Nat) : List Byte :=
  leBytes (max 4 ((nbits + 7) / 8)) (BitVec.ofNat nbits w)

/-- The packet the decoder reads from a table word, `none` where it rejects it. -/
def decodeTableWord (nbits w : Nat) : Option Instr :=
  match decode (tableBytes nbits w) with
  | .ok i => some i
  | .error _ => none

end Sys2Proof
end

