-- ==== Sys2Proof/Machine/State.lean ====
section
/-! DEFINITION. The state of the decoder and of the host memory it shares (10_state.md R20 to R38, 20_memory.md
R50), as plain data, the ways a step can stop, and the state after reset (70_reset_and_hazards.md R260). -/

namespace Sys2Proof.Machine

/-- The four phases of R27. -/
inductive Phase where
  | idle | scanning | done | faulted
deriving DecidableEq, Repr

/-- The eleven fault causes of 60_exceptions.md R220, in the order of their codes 1 to 11. -/
inductive FaultCause where
  | unsupportedPacketFamily
  | unknownOpcode
  | invalidDataSelect
  | invalidInterruptSelect
  | missingInterruptSink
  | streamOverrun
  | regionBoundsViolation
  | malformedPacket
  | misalignedWriteBack
  | writeBackAliasesStream
  | streamShapeInvalid
deriving DecidableEq, Repr

/-- The fault record of R30. `value` is the 32-bit or 64-bit offending value, zero-extended to 64 bits (assumption
log 7). -/
structure FaultRecord where
  code : FaultCause
  offset : BitVec 32
  header : Word
  value : DWord
  count : BitVec 14
deriving DecidableEq, Repr

/-- The kind of a draw notification (R33). -/
inductive DrawKind where
  | indexed | auto
deriving DecidableEq, Repr

/-- The draw-state snapshot of R34. -/
structure Snapshot where
  maxIndexSize : Word
  indexType : Word
  indexBase : DWord
  numIndices : Word
  drawInitiator : Word
deriving DecidableEq, Repr

/-- The value of a write-back together with its width, 4 or 8 bytes (R54). -/
inductive StoreData where
  | data32 (v : Word)
  | data64 (v : DWord)
deriving DecidableEq, Repr

/-- The events of the trace (R33). `writeBack`'s width and value are those of its `StoreData`. -/
inductive Event where
  | packet (offset : BitVec 32) (opcode : BitVec 8) (count : BitVec 14) (handler : Handler)
  | writeBack (addr : DWord) (data : StoreData)
  | irq
  | drawNotify (kind : DrawKind) (snapshot : Snapshot)
  | streamDone (len : BitVec 32)
  | fault (record : FaultRecord)
deriving DecidableEq, Repr

/-- Host memory (R50): the bytes that differ from what an unlisted address reads as, at strictly rising addresses. -/
abbrev Memory := List Host.Cell

/-- The register file (R20): the words that have been written, at strictly rising word indices. A word that is not
listed holds its reset value `Config.rf0`. -/
abbrev RegFile := List (Nat × Word)

/-- The state of R38, the parameters of R11, and host memory (R50). -/
structure State where
  /-- the parameters of R11 and R52: the MODEL's own field, an argument of every rule that no step changes -/
  params : Params
  /-- `RF` (R20) -/
  rf : RegFile
  /-- `sink_registered` (R29) -/
  sinkRegistered : Bool
  /-- `halted` (R28) -/
  halted : Bool
  /-- `phase` (R27) -/
  phase : Phase
  /-- `cursor` (R26): the byte offset of the packet being executed, the program counter of the stream -/
  cursor : BitVec 32
  /-- `stream_base` (R25) -/
  streamBase : DWord
  /-- `stream_len` (R25) -/
  streamLen : BitVec 32
  /-- `fault_rec` (R30) -/
  faultRec : Option FaultRecord
  /-- the trace (R33), oldest event first -/
  trace : List Event
  /-- host memory (R50) -/
  mem : Memory
deriving DecidableEq, Repr

/-- Why there is no next state. The spec's own faults (R220) are NOT here: a fault of R220 is entered as R225 says,
which is a next state in phase `faulted`. -/
inductive Fault where
  /-- Raised by `step` in a phase other than `scanning`, where R101 says the decoder "has no step". Safe: the
  spec gives no transition there either. -/
  | noStep
  /-- Raised by `step` and by the meanings when they would read or write `n` bytes at `addr` that are not valid
  host memory: R52, "has no step: the decoder is stuck in `Scanning` at that packet". Safe: nothing is claimed of
  such a run. -/
  | notAdmitted (addr n : Nat)
deriving DecidableEq, Repr

/-- Why an instruction has no meaning. -/
inductive Refusal where
  /-- Raised by `exec` for an instruction that is not modelled yet; every instruction of this hardware is modelled,
  so no arm raises it. Safe. -/
  | notModelled (mnemonic : String)
deriving DecidableEq, Repr

/-- How a handler ends early (00_scope.md R14 `raise`, 20_memory.md R52). -/
inductive Stop where
  /-- the handler raises a fault of R220; `s` holds the effects it made before (R223) -/
  | raised (s : State) (cause : FaultCause) (value : DWord)
  /-- the handler reads or writes memory that is not admitted (R52) -/
  | stuck (f : Fault)
deriving DecidableEq, Repr

/-- The answer to a host transaction (R100, R236): accepted, with the state it leaves, or refused, with no
transition. -/
inductive HostReply where
  | accepted (s : State)
  | refused
deriving DecidableEq, Repr

/-- The decoder right after reset (R260), with the default parameters and memory that lists nothing (assumption
log 4). The register file lists nothing: every word holds `Config.rf0` (R261). -/
def State.reset : State where
  params := Params.standard
  rf := []
  sinkRegistered := false
  halted := false
  phase := .idle
  cursor := 0#32
  streamBase := 0#64
  streamLen := 0#32
  faultRec := none
  trace := []
  mem := []

end Sys2Proof.Machine
end

