-- ==== Sys2Proof/Machine/Ops.lean ====
section
/-! DEFINITION. The named operations over memory, the register file and the trace; taking a fault; the packet's
frame: the overrun check, the `Packet` event, the advance and the end of a stream. -/

namespace Sys2Proof.Machine

/-! ## Host memory (20_memory.md) -/

/-- What an address that memory does not list reads as. The spec gives host memory no contents of its own (R37);
DESIGN CHOICE, assumption log 4. -/
def unlistedByte : Byte := 0#8

/-- The canonical form of memory: strictly rising addresses, and no entry that an unlisted address would read as. -/
abbrev Memory.wf (m : Memory) : Prop :=
  m.Pairwise (fun c d => c.1 < d.1) ∧ ∀ c ∈ m, c.2 ≠ unlistedByte

/-- The byte at an address. -/
def Memory.read (m : Memory) (a : Nat) : Byte :=
  match m.find? (fun c => c.1 == a) with
  | some c => c.2
  | none => unlistedByte

/-- The entries that hold `bs` at `a` and upward. -/
def memoryCells (a : Nat) : List Byte → Memory
  | [] => []
  | b :: bs => if b = unlistedByte then memoryCells (a + 1) bs else (a, b) :: memoryCells (a + 1) bs

/-- Writes the bytes `bs` at `a` and upward, in canonical form. -/
def Memory.write (m : Memory) (a : Nat) (bs : List Byte) : Memory :=
  m.filter (fun c => c.1 < a) ++ memoryCells a bs ++ m.filter (fun c => a + bs.length ≤ c.1)

/-- `MemRead(addr, 4)`: four bytes, the one at the lowest address in bits [7:0] (R14, R53). -/
def Memory.readWord (m : Memory) (a : Nat) : Word :=
  wordOfBytes (m.read a) (m.read (a + 1)) (m.read (a + 2)) (m.read (a + 3))

/-- Makes `n` bytes from `a` on read as an unlisted address does. -/
def Memory.clear (m : Memory) (a n : Nat) : Memory :=
  m.filter (fun c => c.1 < a) ++ m.filter (fun c => a + n ≤ c.1)

/-- `MEM_ADMIT(addr, n)` (R52): the `n` bytes lie in the 64-bit address space (R50) and in no hole. -/
def State.admits (s : State) (addr n : Nat) : Bool :=
  decide (addr + n ≤ 2 ^ 64) &&
    s.params.holes.all fun h => !decide (rangesMeet addr n h.base h.size)

/-! ## The register file (10_state.md) -/

/-- The canonical form of the register file: strictly rising word indices. -/
abbrev RegFile.wf (rf : RegFile) : Prop := rf.Pairwise (fun c d => c.1 < d.1)

/-- `RF[i]`: the word last written, or the reset value (R20, R261). -/
def RegFile.read (rf : RegFile) (i : Nat) : Word :=
  match rf.find? (fun c => c.1 == i) with
  | some c => c.2
  | none => Config.rf0 i

/-- The entries that hold `ws` at `i` and upward. -/
def regCells (i : Nat) : List Word → RegFile
  | [] => []
  | w :: ws => (i, w) :: regCells (i + 1) ws

/-- `RF[i + k] <- ws[k]` for every `k` (R130); one word for a list of one. -/
def RegFile.write (rf : RegFile) (i : Nat) (ws : List Word) : RegFile :=
  rf.filter (fun c => c.1 < i) ++ regCells i ws ++ rf.filter (fun c => i + ws.length ≤ c.1)

/-- `RF[i] <- v` on the state (R14). -/
def State.setReg (s : State) (i : Nat) (v : Word) : State := { s with rf := s.rf.write i [v] }

/-- `RF[i + k] <- ws[k]` on the state, for every `k` (R130). -/
def State.setRegs (s : State) (i : Nat) (ws : List Word) : State := { s with rf := s.rf.write i ws }

/-! ## The trace and faults -/

/-- `emit E` (R14, R33). -/
def State.emit (s : State) (e : Event) : State := { s with trace := s.trace ++ [e] }

/-- The number of a fault cause (R220). -/
def FaultCause.number : FaultCause → Nat
  | .unsupportedPacketFamily => 1
  | .unknownOpcode => 2
  | .invalidDataSelect => 3
  | .invalidInterruptSelect => 4
  | .missingInterruptSink => 5
  | .streamOverrun => 6
  | .regionBoundsViolation => 7
  | .malformedPacket => 8
  | .misalignedWriteBack => 9
  | .writeBackAliasesStream => 10
  | .streamShapeInvalid => 11

/-- The record that `raise` makes (R225): the offset is the cursor. -/
def State.faultRecord (s : State) (cause : FaultCause) (header : Word) (value : DWord) (count : BitVec 14) :
    FaultRecord :=
  { code := cause, offset := s.cursor, header := header, value := value, count := count }

/-- `raise F(value)` (R225), the ONE operation that takes a fault. There is no return from it (R227): only reset
leaves phase `faulted`. -/
def State.raise (s : State) (cause : FaultCause) (header : Word) (value : DWord) (count : BitVec 14) : State :=
  { s with
    faultRec := some (s.faultRecord cause header value count)
    phase := .faulted
    halted := true
    trace := s.trace ++ [.fault (s.faultRecord cause header value count)] }

/-- A header that is no packet faults as R104 and R107 say. -/
def State.raiseReject (s : State) (hdr : Word) : HeaderReject → State
  | .unsupportedFamily type => s.raise .unsupportedPacketFamily hdr (type.setWidth 64) 0#14
  | .unknownOpcode op count => s.raise .unknownOpcode hdr (op.setWidth 64) count

/-! ## The packet at the cursor -/

/-- The byte address of word `i` of the packet at the cursor, exact (R14, R53). -/
def State.packetAddr (s : State) (i : Nat) : Nat := s.streamBase.toNat + s.cursor.toNat + 4 * i

/-- Word `i` of the packet at the cursor, as memory holds it. -/
def State.packetWord (s : State) (i : Nat) : Word := s.mem.readWord (s.packetAddr i)

/-- `hdr`, the header word `P(0)` (R14, R102). -/
def State.headerWord (s : State) : Word := s.packetWord 0

/-- The header fetch of R102: in `scanning` only (R101), and only from admitted memory (R52). -/
def State.fetchHeader (s : State) : Except Fault Word :=
  if s.phase = .scanning then
    if s.admits (s.packetAddr 0) 4 then .ok s.headerWord else .error (.notAdmitted (s.packetAddr 0) 4)
  else .error .noStep

/-- `P(i)` (R14): stuck where the word is not admitted (R52). -/
def State.payload (s : State) (i : Nat) : Except Stop Word :=
  if s.admits (s.packetAddr i) 4 then .ok (s.packetWord i)
  else .error (.stuck (.notAdmitted (s.packetAddr i) 4))

/-- `P(first) .. P(first + n - 1)`, in increasing order; stuck at the first that is not admitted (R52). -/
def State.payloadBlock (s : State) (first n : Nat) : Except Stop (List Word) :=
  match (List.range n).find? (fun k => !s.admits (s.packetAddr (first + k)) 4) with
  | some k => .error (.stuck (.notAdmitted (s.packetAddr (first + k)) 4))
  | none => .ok ((List.range n).map fun k => s.packetWord (first + k))

/-- `require c else raise F(value)` (R14), in a handler. -/
def require (c : Bool) (s : State) (cause : FaultCause) (value : DWord) : Except Stop Unit :=
  if c then .ok () else .error (.raised s cause value)

/-- `MemWrite(addr, n, v)` with the value's bytes given (R14, R54): stuck where the target is not admitted (R52). -/
def State.storeBytes (s : State) (addr : Nat) (bs : List Byte) : Except Stop State :=
  if s.admits addr bs.length then .ok { s with mem := s.mem.write addr bs }
  else .error (.stuck (.notAdmitted addr bs.length))

/-- `size = 4 * (count + 1)` (R74). -/
def packetSize (count : BitVec 14) : Nat := 4 * (count.toNat + 1)

/-- `cursor + size > stream_len`, exactly (R108). -/
def State.overruns (s : State) (count : BitVec 14) : Bool :=
  decide (s.streamLen.toNat < s.cursor.toNat + packetSize count)

/-- The advance of R110, and the end of the stream of R111 when it reaches `stream_len`. -/
def State.advance (s : State) (size : Nat) : State :=
  { s with
    cursor := s.cursor + BitVec.ofNat 32 size
    phase := if s.cursor + BitVec.ofNat 32 size = s.streamLen then .done else s.phase
    trace := if s.cursor + BitVec.ofNat 32 size = s.streamLen then s.trace ++ [.streamDone s.streamLen] else s.trace }

/-- `Packet(cursor, op, count, h)` (R109). -/
def State.emitPacket (s : State) (i : Instr) : State := s.emit (.packet s.cursor i.opcode i.count i.handler)

/-- What the dispatcher makes of a handler's end (R110): the advance, the fault, or no step. -/
def finishPacket (i : Instr) (hdr : Word) : Except Stop State → Host.Outcome State Fault Refusal
  | .ok t => .next (t.advance (packetSize i.count))
  | .error (.raised t cause value) => .next (t.raise cause hdr value i.count)
  | .error (.stuck f) => .fault f

/-- The rest of a step once the header has selected the packet `i` (R102, from the overrun check on). -/
def runPacket (i : Instr) (handler : State → Except Stop State) (s : State) : Host.Outcome State Fault Refusal :=
  if s.overruns i.count then
    .next (s.raise .streamOverrun s.headerWord (BitVec.ofNat 64 (packetSize i.count)) i.count)
  else finishPacket i s.headerWord (handler (s.emitPacket i))

/-- Places one packet, given as the bits `w` of a table row, as a stream of its own at `stream_base`: its bytes, zeros
for the rest of its payload, and the latches that `Start` would set (R100). -/
def State.placePacket (s : State) (nbits w : Nat) : State :=
  { s with
    mem := (s.mem.clear s.streamBase.toNat (packetSize (headerCount (BitVec.ofNat 32 (w % 2 ^ nbits))))).write
      s.streamBase.toNat (tableBytes nbits w)
    cursor := 0#32
    streamLen := BitVec.ofNat 32 (packetSize (headerCount (BitVec.ofNat 32 (w % 2 ^ nbits))))
    phase := .scanning }

end Sys2Proof.Machine
end

