-- ==== Sys2Proof/Machine/Operands.lean ====
section
/-! DEFINITION. The payload fields of the formats SETREG, DRAWIDX2, DRAWAUTO and EOP (30_encoding.md R77 to R85), the
regions (10_state.md R22) and the draw-state view (R24). All fields are unsigned and assembled by zero extension and
concatenation (R85). -/

namespace Sys2Proof.Machine

/-! ## SETREG (R77) -/

/-- `BASE_R` (R22). -/
def regionBase (p : Params) : Region → Nat
  | .ctx => p.ctxBase
  | .sh => p.shBase
  | .uc => p.ucBase

/-- `CAP_R` (R22). -/
def regionCap (p : Params) : Region → Nat
  | .ctx => p.ctxCap
  | .sh => p.shCap
  | .uc => p.ucCap

/-- `REG_OFFSET = DW1[15:0]`, unsigned; `DW1[31:16]` is ignored (R77). -/
def regOffset (w1 : Word) : BitVec 16 := w1.extractLsb' 0 16

/-! ## EOP (R81 to R85) -/

/-- `DATA_SEL = DW3[31:29]` (R81). -/
def dataSel (w3 : Word) : BitVec 3 := w3.extractLsb' 29 3

/-- `INT_SEL = DW3[25:24]` (R81). -/
def intSel (w3 : Word) : BitVec 2 := w3.extractLsb' 24 2

/-- `addr = zext_64(DW3[ADDR_HI_BITS-1:0]) << 32 | zext_64(DW2)` (R85, R172). -/
def writeBackAddr (hiBits : Nat) (w2 w3 : Word) : DWord :=
  ((w3.extractLsb' 0 hiBits).setWidth 64 <<< 32) ||| w2.setWidth 64

/-- The width of a write-back in bytes (R55). -/
def StoreData.width : StoreData → Nat
  | .data32 _ => 4
  | .data64 _ => 8

/-- The bytes of a write-back, lowest address first (R54). -/
def StoreData.bytes : StoreData → List Byte
  | .data32 v => leBytes 4 v
  | .data64 v => leBytes 8 v

/-! ## The draw state (R24) -/

/-- `index_base = RF[IX_BASE_HI] : RF[IX_BASE_LO]` (R24, R85). -/
def indexBase (hi lo : Word) : DWord := (hi.setWidth 64 <<< 32) ||| lo.setWidth 64

/-- `Snapshot()` (R34): the draw-state view at this moment. -/
def State.snapshot (s : State) : Snapshot where
  maxIndexSize := s.rf.read s.params.ixMaxSize
  indexType := s.rf.read s.params.ixIndexType
  indexBase := indexBase (s.rf.read s.params.ixBaseHi) (s.rf.read s.params.ixBaseLo)
  numIndices := s.rf.read s.params.ixNumIndices
  drawInitiator := s.rf.read s.params.ixDrawInitiator

end Sys2Proof.Machine
end

