-- ==== Sys2Proof/Machine/Flags.lean ====
section
/-! DEFINITION. The decoder has no flags, condition codes or predicates (10_state.md R32): there is no flag to compute.
This file holds the Boolean conditions its checks compute instead, each with the rule that states it. -/

namespace Sys2Proof.Machine

/-- A handler's minimum payload count is met (30_encoding.md R91). -/
def hasWords (count : BitVec 14) (min : Nat) : Bool := decide (min ≤ count.toNat)

/-- `off + n <= CAP_R`, on the whole range and exactly (41_register_writes.md R131). -/
def insideRegion (p : Params) (r : Region) (off n : Nat) : Bool := decide (off + n ≤ regionCap p r)

/-- `dsel = 1 or dsel = 2` (43_event_eop.md R173). -/
def validDataSel (d : BitVec 3) : Bool := d == 1#3 || d == 2#3

/-- `isel = 0 or isel = 2` (R177). -/
def validIntSel (i : BitVec 2) : Bool := i == 0#2 || i == 2#2

/-- `addr mod w = 0` (R174). -/
def isAligned (addr : DWord) (w : Nat) : Bool := addr.toNat % w == 0

/-- `addr + w <= stream_base or addr >= stream_base + stream_len`, exactly (R175). -/
def State.missesStream (s : State) (addr w : Nat) : Bool :=
  decide (addr + w ≤ s.streamBase.toNat ∨ s.streamBase.toNat + s.streamLen.toNat ≤ addr)

/-- The shape `Start` asks of a stream (40_dispatcher.md R100, R58, R60). -/
def streamShapeOk (b : DWord) (l : BitVec 32) : Bool :=
  decide (b.toNat % 4 = 0 ∧ l.toNat % 4 = 0 ∧ b.toNat + l.toNat ≤ 2 ^ 64)

end Sys2Proof.Machine
end

