-- ==== Sys2Proof/Machine/Draw.lean ====
section
/-! DEFINITION. INDEX_TYPE, DRAW_INDEX_2, DRAW_INDEX_AUTO and DISPATCH_DIRECT (42_draw.md). -/

namespace Sys2Proof.Machine

/-- `emit DrawNotify(kind, Snapshot())` (R155). -/
def State.notifyDraw (s : State) (kind : DrawKind) : State := s.emit (.drawNotify kind s.snapshot)

/-- The handler of INDEX_TYPE (R150). -/
def indexTypeHandler (count : BitVec 14) (s : State) : Except Stop State := do
  require (hasWords count 1) s .malformedPacket (count.setWidth 64)
  let w1 ← s.payload 1
  .ok (s.setReg s.params.ixIndexType w1)

/-- The five register writes of DRAW_INDEX_2 (R152), in its order. -/
def State.stageIndexed (s : State) (w1 w2 w3 w4 w5 : Word) : State :=
  ((((s.setReg s.params.ixMaxSize w1).setReg s.params.ixBaseLo w2).setReg s.params.ixBaseHi w3).setReg
    s.params.ixNumIndices w4).setReg s.params.ixDrawInitiator w5

/-- The handler of DRAW_INDEX_2 (R152). -/
def drawIndex2Handler (count : BitVec 14) (s : State) : Except Stop State := do
  require (hasWords count 5) s .malformedPacket (count.setWidth 64)
  let w1 ← s.payload 1
  let w2 ← s.payload 2
  let w3 ← s.payload 3
  let w4 ← s.payload 4
  let w5 ← s.payload 5
  .ok ((s.stageIndexed w1 w2 w3 w4 w5).notifyDraw .indexed)

/-- The two register writes of DRAW_INDEX_AUTO (R156), in its order. -/
def State.stageAuto (s : State) (w1 w2 : Word) : State :=
  (s.setReg s.params.ixNumIndices w1).setReg s.params.ixDrawInitiator w2

/-- The handler of DRAW_INDEX_AUTO (R156). -/
def drawIndexAutoHandler (count : BitVec 14) (s : State) : Except Stop State := do
  require (hasWords count 2) s .malformedPacket (count.setWidth 64)
  let w1 ← s.payload 1
  let w2 ← s.payload 2
  .ok ((s.stageAuto w1 w2).notifyDraw .auto)

/-- INDEX_TYPE (R150). -/
def execIndexType (count : BitVec 14) (s : State) : Host.Outcome State Fault Refusal :=
  runPacket (.indexType count) (indexTypeHandler count) s

/-- DRAW_INDEX_2 (R152). -/
def execDrawIndex2 (count : BitVec 14) (s : State) : Host.Outcome State Fault Refusal :=
  runPacket (.drawIndex2 count) (drawIndex2Handler count) s

/-- DRAW_INDEX_AUTO (R156). -/
def execDrawIndexAuto (count : BitVec 14) (s : State) : Host.Outcome State Fault Refusal :=
  runPacket (.drawIndexAuto count) (drawIndexAutoHandler count) s

/-- DISPATCH_DIRECT (R158): "parsed, not yet acted upon"; the `Packet` event is its whole effect. -/
def execDispatchDirect (count : BitVec 14) (s : State) : Host.Outcome State Fault Refusal :=
  runPacket (.dispatchDirect count) .ok s

end Sys2Proof.Machine
end

