-- ==== Sys2Proof/Machine/EventEop.lean ====
section
/-! DEFINITION. EVENT_WRITE_EOP: the end-of-pipe write-back and interrupt (43_event_eop.md). -/

namespace Sys2Proof.Machine

/-- The value a write-back stores (R176): `P(4)` for `Data32Low`, which does not read `P(5)` (R180), and
`P(5) : P(4)` for `Data64`. -/
def State.eopData (s : State) (dsel : BitVec 3) : Except Stop StoreData := do
  let w4 ← s.payload 4
  if dsel = 1#3 then .ok (.data32 w4)
  else do
    let w5 ← s.payload 5
    .ok (.data64 (w5 ++ w4))

/-- The width `w` that `DATA_SEL` selects (R170). -/
def eopWidth (dsel : BitVec 3) : Nat := if dsel = 1#3 then 4 else 8

/-- The write-back of R176: the store, complete before its `WriteBack` event. -/
def State.writeBack (s : State) (addr : DWord) (d : StoreData) : Except Stop State := do
  let t ← s.storeBytes addr.toNat d.bytes
  .ok (t.emit (.writeBack addr d))

/-- The interrupt step of R177 to R179, after the write-back. -/
def State.confirmInterrupt (s : State) (isel : BitVec 2) : Except Stop State := do
  require (validIntSel isel) s .invalidInterruptSelect (isel.setWidth 64)
  if isel = 2#2 then do
    require s.sinkRegistered s .missingInterruptSink 0#64
    .ok (s.emit .irq)
  else .ok s

/-- The handler of EVENT_WRITE_EOP (R170), in the order of its pseudocode. -/
def eventWriteEopHandler (count : BitVec 14) (s : State) : Except Stop State := do
  require (hasWords count 5) s .malformedPacket (count.setWidth 64)
  let w3 ← s.payload 3
  let w2 ← s.payload 2
  let addr := writeBackAddr s.params.addrHiBits w2 w3
  let dsel := dataSel w3
  require (validDataSel dsel) s .invalidDataSelect (dsel.setWidth 64)
  require (isAligned addr (eopWidth dsel)) s .misalignedWriteBack addr
  require (s.missesStream addr.toNat (eopWidth dsel)) s .writeBackAliasesStream addr
  let d ← s.eopData dsel
  let t ← s.writeBack addr d
  t.confirmInterrupt (intSel w3)

/-- EVENT_WRITE_EOP (R170). -/
def execEventWriteEop (count : BitVec 14) (s : State) : Host.Outcome State Fault Refusal :=
  runPacket (.eventWriteEop count) (eventWriteEopHandler count) s

end Sys2Proof.Machine
end

