-- ==== Sys2Proof/Machine/Inert.lean ====
section
/-! DEFINITION. The recognised-inert opcodes (44_inert.md): the handler reads no payload word, writes nothing and emits
nothing beyond the `Packet` event (R206). -/

namespace Sys2Proof.Machine

/-- NOP (R200). -/
def execNop (count : BitVec 14) (s : State) : Host.Outcome State Fault Refusal :=
  runPacket (.nop count) .ok s

/-- EVENT_WRITE_EOS (R201): no write-back and no interrupt. -/
def execEventWriteEos (count : BitVec 14) (s : State) : Host.Outcome State Fault Refusal :=
  runPacket (.eventWriteEos count) .ok s

/-- DMA_DATA (R202): no memory is copied. -/
def execDmaData (count : BitVec 14) (s : State) : Host.Outcome State Fault Refusal :=
  runPacket (.dmaData count) .ok s

/-- WRITE_DATA (R203): nothing is written. -/
def execWriteData (count : BitVec 14) (s : State) : Host.Outcome State Fault Refusal :=
  runPacket (.writeData count) .ok s

/-- ACQUIRE_MEM (R204): no cache action and no wait. -/
def execAcquireMem (count : BitVec 14) (s : State) : Host.Outcome State Fault Refusal :=
  runPacket (.acquireMem count) .ok s

/-- WAIT_REG_MEM (R205): it never waits. -/
def execWaitRegMem (count : BitVec 14) (s : State) : Host.Outcome State Fault Refusal :=
  runPacket (.waitRegMem count) .ok s

end Sys2Proof.Machine
end

