-- ==== Sys2Proof/Machine/RegisterWrites.lean ====
section
/-! DEFINITION. SET_CONTEXT_REG, SET_SH_REG and SET_UCONFIG_REG (41_register_writes.md). -/

namespace Sys2Proof.Machine

/-- `SetReg(R)` of R130: one bounds check on the whole range before any write (R131), then the verbatim copy
(R137). -/
def setRegHandler (r : Region) (count : BitVec 14) (s : State) : Except Stop State := do
  require (hasWords count 1) s .malformedPacket (count.setWidth 64)
  let w1 ← s.payload 1
  let off := (regOffset w1).toNat
  let n := count.toNat - 1
  require (insideRegion s.params r off n) s .regionBoundsViolation ((regOffset w1).setWidth 64)
  let data ← s.payloadBlock 2 n
  .ok (s.setRegs (regionBase s.params r + off) data)

/-- SET_CONTEXT_REG (R132). -/
def execSetContextReg (count : BitVec 14) (s : State) : Host.Outcome State Fault Refusal :=
  runPacket (.setContextReg count) (setRegHandler .ctx count) s

/-- SET_SH_REG (R133). -/
def execSetShReg (count : BitVec 14) (s : State) : Host.Outcome State Fault Refusal :=
  runPacket (.setShReg count) (setRegHandler .sh count) s

/-- SET_UCONFIG_REG (R134). -/
def execSetUconfigReg (count : BitVec 14) (s : State) : Host.Outcome State Fault Refusal :=
  runPacket (.setUconfigReg count) (setRegHandler .uc count) s

end Sys2Proof.Machine
end

