-- ==== Sys2Proof/Machine/Dispatch.lean ====
section
/-! DEFINITION. `exec`: the packet `i` at the cursor, from the overrun check on (40_dispatcher.md R102, R108 to R111). -/

namespace Sys2Proof.Machine

/-- One arm per row of spec/opcode_table.json, in the table's order. -/
def exec (i : Instr) (s : State) : Host.Outcome State Fault Refusal :=
  match i with
  | .nop count => Sys2Proof.Machine.execNop count s
  | .dispatchDirect count => Sys2Proof.Machine.execDispatchDirect count s
  | .drawIndex2 count => Sys2Proof.Machine.execDrawIndex2 count s
  | .indexType count => Sys2Proof.Machine.execIndexType count s
  | .drawIndexAuto count => Sys2Proof.Machine.execDrawIndexAuto count s
  | .writeData count => Sys2Proof.Machine.execWriteData count s
  | .waitRegMem count => Sys2Proof.Machine.execWaitRegMem count s
  | .eventWriteEop count => Sys2Proof.Machine.execEventWriteEop count s
  | .eventWriteEos count => Sys2Proof.Machine.execEventWriteEos count s
  | .dmaData count => Sys2Proof.Machine.execDmaData count s
  | .acquireMem count => Sys2Proof.Machine.execAcquireMem count s
  | .setContextReg count => Sys2Proof.Machine.execSetContextReg count s
  | .setShReg count => Sys2Proof.Machine.execSetShReg count s
  | .setUconfigReg count => Sys2Proof.Machine.execSetUconfigReg count s

end Sys2Proof.Machine
end

