-- ==== Sys2Proof/Machine/HostPort.lean ====
section
/-! DEFINITION. The host's side (00_scope.md R8, R9): the transactions `Start` (40_dispatcher.md R100) and `RegisterSink`
(60_exceptions.md R236), reset (70_reset_and_hazards.md R260), and the host's own stores to the memory it shares
(20_memory.md R50, R63). Only the decoder has steps (R8): these are functions beside `step`, not arms of it. Assumption
log 6. -/

namespace Sys2Proof.Machine

/-- The latches that `Start` writes before its checks (R100). -/
def State.latchStream (s : State) (b : DWord) (l : BitVec 32) : State :=
  { s with streamBase := b, streamLen := l, cursor := 0#32 }

/-- `Start(b, l)` (R100). -/
def State.start (s : State) (b : DWord) (l : BitVec 32) : HostReply :=
  if s.halted = true ∨ s.phase = .scanning then .refused
  else if streamShapeOk b l then
    if l = 0#32 then .accepted ({ s.latchStream b l with phase := .done }.emit (.streamDone 0#32))
    else .accepted { s.latchStream b l with phase := .scanning }
  else .accepted ((s.latchStream b l).raise .streamShapeInvalid 0#32 (l.setWidth 64) 0#14)

/-- `RegisterSink()` (R236). -/
def State.registerSink (s : State) : HostReply :=
  if s.sinkRegistered = true ∨ s.phase = .scanning then .refused
  else .accepted { s with sinkRegistered := true }

/-- Reset of a decoder (R260): it does not change host memory (R263), nor the parameters. The spec does not say in which
phases a reset may come; here it may come in every phase, also while a stream is scanned: DESIGN CHOICE, assumption
log 17. -/
def State.resetDecoder (s : State) : State := { State.reset with params := s.params, mem := s.mem }

/-- A store by the host, or by another agent, to the memory it shares with the decoder (R50). The duty of R63 is a
condition: while a stream is scanned, no byte of it is written. -/
def State.hostStore (s : State) (addr : Nat) (bs : List Byte) : HostReply :=
  if addr + bs.length ≤ 2 ^ 64 ∧
      (s.phase = .scanning → ¬ rangesMeet addr bs.length s.streamBase.toNat s.streamLen.toNat) then
    .accepted { s with mem := s.mem.write addr bs }
  else .refused

end Sys2Proof.Machine
end

