-- ==== Sys2Proof/Machine/Step.lean ====
section
/-! DEFINITION. One step of the decoder (40_dispatcher.md R101, R102). -/

namespace Sys2Proof.Machine

/-- `Step()` of R102: fetch the header, parse and route it, fault where it is no packet, else run the packet. -/
def step (s : State) : Host.Outcome State Fault Refusal :=
  match s.fetchHeader with
  | .error f => .fault f
  | .ok hdr =>
    match decodeHeader hdr with
    | .error r => .next (s.raiseReject hdr r)
    | .ok i => exec i s

/-- `s` about to run the packet whose bits are `w`, as the one packet of a started stream at `stream_base`. Assumption
log 6. -/
def State.withFetchWord (s : State) (nbits w : Nat) : State := s.placePacket nbits w

end Sys2Proof.Machine
end

