-- ==== Sys2Proof/Safety.lean ====
section
/-! DEFINITION. The terms claims are stated in: what a packet that completes and a packet that faults leave unchanged,
the invariant of the decoder, the states a decoder and its host can reach, and what the trace says of a run. -/

namespace Sys2Proof.Machine

/-! ## Frames -/

/-- The packet `i` at the cursor lies inside the stream: the overrun check of 40_dispatcher.md R108 passes. -/
def State.Fits (s : State) (i : Instr) : Prop :=
  s.cursor.toNat + 4 * (i.count.toNat + 1) ≤ s.streamLen.toNat

/-- The payload words `P(1) .. P(n)` are valid host memory (20_memory.md R52). -/
def State.PayloadAdmitted (s : State) (n : Nat) : Prop :=
  ∀ k, 1 ≤ k → k ≤ n → s.admits (s.packetAddr k) 4 = true

/-- From `s`, a packet of `count` payload words completed in `t` and emitted `events`: the cursor, the phase and the
trace are as R110 and R111 say, and no control state is changed (10_state.md R31). -/
structure Completed (s : State) (count : BitVec 14) (events : List Event) (t : State) : Prop where
  cursor : t.cursor.toNat = s.cursor.toNat + 4 * (count.toNat + 1)
  phase : t.phase = if s.cursor.toNat + 4 * (count.toNat + 1) = s.streamLen.toNat then .done else s.phase
  trace : t.trace = s.trace ++ events ++
    (if s.cursor.toNat + 4 * (count.toNat + 1) = s.streamLen.toNat then [.streamDone s.streamLen] else [])
  sinkRegistered : t.sinkRegistered = s.sinkRegistered
  halted : t.halted = s.halted
  streamBase : t.streamBase = s.streamBase
  streamLen : t.streamLen = s.streamLen
  faultRec : t.faultRec = s.faultRec
  params : t.params = s.params

/-- From `s`, a fault was entered in `t` as 60_exceptions.md R225 says, after `events`: the record, the phase, the sticky
`halted` and the `Fault` event; the cursor, the stream and the sink are unchanged. -/
structure FaultEntered (s : State) (events : List Event) (cause : FaultCause) (header : Word) (value : DWord)
    (count : BitVec 14) (t : State) : Prop where
  phase : t.phase = .faulted
  halted : t.halted = true
  faultRec : t.faultRec =
    some { code := cause, offset := s.cursor, header := header, value := value, count := count }
  trace : t.trace = s.trace ++ events ++
    [.fault { code := cause, offset := s.cursor, header := header, value := value, count := count }]
  cursor : t.cursor = s.cursor
  streamBase : t.streamBase = s.streamBase
  streamLen : t.streamLen = s.streamLen
  sinkRegistered : t.sinkRegistered = s.sinkRegistered
  params : t.params = s.params

/-- No register-file word is changed. -/
def SameRegs (s t : State) : Prop := ∀ i, t.rf.read i = s.rf.read i

/-- No byte of memory is changed. -/
def SameMem (s t : State) : Prop := ∀ a, t.mem.read a = s.mem.read a

/-- No byte of memory outside `[lo, lo + n)` is changed. -/
def SameMemOutside (s t : State) (lo n : Nat) : Prop :=
  ∀ a, a < lo ∨ lo + n ≤ a → t.mem.read a = s.mem.read a

/-- An EVENT_WRITE_EOP packet of `count` payload words at the cursor that passes every check before its write-back
(43_event_eop.md R170 to R175), for a write of `w` bytes at `addr`. The fields are those of 30_encoding.md R81, written out
as arithmetic on the payload words; `P(1)` is not read (R180). -/
structure EopChecked (s : State) (count : BitVec 14) (addr w : Nat) : Prop where
  words : 5 ≤ count.toNat
  fits : s.Fits (.eventWriteEop count)
  addressLow : s.admits (s.packetAddr 2) 4 = true
  control : s.admits (s.packetAddr 3) 4 = true
  select : ((s.packetWord 3).toNat / 2 ^ 29 = 1 ∧ w = 4) ∨ ((s.packetWord 3).toNat / 2 ^ 29 = 2 ∧ w = 8)
  address : addr = (s.packetWord 3).toNat % 2 ^ s.params.addrHiBits * 2 ^ 32 + (s.packetWord 2).toNat
  aligned : addr % w = 0
  clear : addr + w ≤ s.streamBase.toNat ∨ s.streamBase.toNat + s.streamLen.toNat ≤ addr

/-- Such a packet whose data words are valid memory: `v`, of `w` bytes, is to be written, and its event carries `data`
(R176). `P(5)` is read for the 8-byte write only (R180). -/
structure EopLoaded (s : State) (count : BitVec 14) (addr w v : Nat) (data : StoreData) : Prop
    extends EopChecked s count addr w where
  dataLow : s.admits (s.packetAddr 4) 4 = true
  value :
    (w = 4 ∧ v = (s.packetWord 4).toNat ∧ data = .data32 (s.packetWord 4)) ∨
      (w = 8 ∧ v = (s.packetWord 5).toNat * 2 ^ 32 + (s.packetWord 4).toNat ∧
        data = .data64 (s.packetWord 5 ++ s.packetWord 4) ∧ s.admits (s.packetAddr 5) 4 = true)

/-- Such a packet whose target is valid memory too: its write-back happens. -/
structure EopReady (s : State) (count : BitVec 14) (addr w v : Nat) (data : StoreData) : Prop
    extends EopLoaded s count addr w v data where
  target : s.admits addr w = true

/-- The `w` bytes at `addr` hold `v`, least significant byte first (20_memory.md R54), and no other byte of memory is
changed. -/
structure Stored (s t : State) (addr w v : Nat) : Prop where
  bytes : ∀ k, k < w → t.mem.read (addr + k) = BitVec.ofNat 8 (v / 2 ^ (8 * k))
  frame : SameMemOutside s t addr w

/-! ## The invariant -/

/-- The event is a `Fault`. -/
def Event.isFault : Event → Bool
  | .fault _ => true
  | _ => false

/-- What holds of a decoder at every point between two transitions. -/
structure State.Inv (s : State) : Prop where
  /-- the constraints of R11 -/
  params : s.params.WellFormed
  /-- memory is in its canonical form, inside the 64-bit address space -/
  mem : s.mem.wf
  memInside : ∀ c ∈ s.mem, c.1 < 2 ^ 64
  /-- the register file is in its canonical form, inside `REG_FILE_WORDS` (R20) -/
  rf : s.rf.wf
  rfInside : ∀ c ∈ s.rf, c.1 < s.params.regFileWords
  /-- the cursor "is always a multiple of 4 and always satisfies `cursor <= stream_len`" (R26) -/
  cursorAligned : s.cursor.toNat % 4 = 0
  cursorInside : s.cursor.toNat ≤ s.streamLen.toNat
  /-- "In `Scanning`, `cursor < stream_len`. In `Done`, `cursor = stream_len`" (R27) -/
  scanning : s.phase = .scanning → s.cursor.toNat < s.streamLen.toNat
  done : s.phase = .done → s.cursor = s.streamLen
  /-- the shape `Start` asked for (R100), but where `Start` itself faulted -/
  shape : s.phase ≠ .faulted →
    s.streamBase.toNat % 4 = 0 ∧ s.streamLen.toNat % 4 = 0 ∧ s.streamBase.toNat + s.streamLen.toNat ≤ 2 ^ 64
  /-- `halted` is set by every fault and by nothing else (R28) -/
  halted : s.halted = true ↔ s.phase = .faulted
  /-- `fault_rec` is `none` until the fault, and the trace ends in its `Fault` event (R226) -/
  faultRec : s.phase ≠ .faulted → s.faultRec = none
  faultTrace : s.phase = .faulted → ∃ r pre, s.faultRec = some r ∧ s.trace = pre ++ [.fault r] ∧
    ∀ e ∈ pre, e.isFault = false
  noFault : s.phase ≠ .faulted → ∀ e ∈ s.trace, e.isFault = false
  /-- `Idle`: "no stream started since reset" (R27), so no event yet (R33) -/
  idle : s.phase = .idle → s.trace = []

/-- Every `Irq` of the trace stands right after the `WriteBack` of an EVENT_WRITE_EOP packet (60_exceptions.md R235). -/
def IrqsConfirmed (trace : List Event) : Prop :=
  ∀ pre post, trace = pre ++ .irq :: post →
    ∃ before offset count addr d,
      pre = before ++ [.packet offset 0x47#8 count .eventWriteEop, .writeBack addr d]

/-! ## Runs -/

/-- The states that a decoder, its host and the other agents can reach from reset, with any parameters that meet R11
and any memory. -/
inductive Reachable : State → Prop where
  | reset (p : Params) (m : Memory) (hp : p.WellFormed) (hm : m.wf) (hi : ∀ c ∈ m, c.1 < 2 ^ 64) :
      Reachable { State.reset with params := p, mem := m }
  | step (s t : State) (h : Reachable s) (ht : Machine.step s = .next t) : Reachable t
  | start (s t : State) (b : DWord) (l : BitVec 32) (h : Reachable s) (ht : s.start b l = .accepted t) : Reachable t
  | registerSink (s t : State) (h : Reachable s) (ht : s.registerSink = .accepted t) : Reachable t
  | hostStore (s t : State) (a : Nat) (bs : List Byte) (h : Reachable s) (ht : s.hostStore a bs = .accepted t) :
      Reachable t
  /-- a reset in any phase, also while a stream is scanned: DESIGN CHOICE, assumption log 17 -/
  | resetDecoder (s : State) (h : Reachable s) : Reachable s.resetDecoder

/-- Follows the `Packet` events of a trace from a byte offset: each must stand where the one before it ended, and the
answer is where the last one ends (40_dispatcher.md R112); `none` at a gap or an overlap. -/
def tiledFrom : Nat → List Event → Option Nat
  | at_, [] => some at_
  | at_, .packet offset _ count _ :: es =>
    if offset.toNat = at_ then tiledFrom (at_ + 4 * (count.toNat + 1)) es else none
  | at_, _ :: es => tiledFrom at_ es

/-- The events that `s` added after the trace `pre` tile `[0, cursor)` with its packets, unless `s` has faulted
(40_dispatcher.md R112). -/
def State.TiledSince (pre : List Event) (s : State) : Prop :=
  s.phase ≠ .faulted → ∃ events, s.trace = pre ++ events ∧ tiledFrom 0 events = some s.cursor.toNat

/-- The event is a `Packet`. -/
def Event.isPacket : Event → Bool
  | .packet _ _ _ _ => true
  | _ => false

/-- The event is a `DrawNotify`. -/
def Event.isDraw : Event → Bool
  | .drawNotify _ _ => true
  | _ => false

/-- The event is an `Irq`. -/
def Event.isIrq : Event → Bool
  | .irq => true
  | _ => false

/-- The event with a draw's snapshot blanked: all that the decoder itself decides of it (R261). -/
def Event.withoutSnapshot : Event → Event
  | .drawNotify kind _ => .drawNotify kind ⟨0#32, 0#32, 0#64, 0#32, 0#32⟩
  | e => e

/-- `t` and `u` agree on everything but the register file and the register values that draws reported. -/
def AgreeButRegs (t u : State) : Prop :=
  { u with rf := t.rf, trace := t.trace } = t ∧
    u.trace.map Event.withoutSnapshot = t.trace.map Event.withoutSnapshot

end Sys2Proof.Machine
end

