-- ==== Sys2Proof/Certificates/Slice0/Obligations.lean ====
section
/-! DEFINITION. The statements for the provers. Each docstring names the rule it formalises; where a statement rests on
a choice of the model or on an inference the spec marks as its own, it says so. -/

open Sys2Proof Sys2Proof.Machine

/-! ## Encoding -/

/-- The header word is the formula the spec gives for it, and parsing the canonical header's four bytes, lowest address
first and whatever follows them, gives the packet back. 30_encoding.md section 3 (R86, which the spec derives). -/
def Obligations.CanonicalHeadersDecode : Prop :=
  (∀ (op : BitVec 8) (count : BitVec 14) (low8 : BitVec 8),
      (makeHeader op count low8).toNat =
        0xC0000000 + (count.toNat + (2 ^ 14 - 1)) % 2 ^ 14 * 2 ^ 16 + op.toNat * 2 ^ 8 + low8.toNat) ∧
    (∀ (i : Instr) (low8 : BitVec 8), decodeHeader (makeHeader i.opcode i.count low8) = .ok i) ∧
    ∀ (i : Instr) (rest : List Byte), decode (leBytes 4 (encode i) ++ rest) = .ok i

/-- R87 with R73: a header selects an instruction exactly when `(hdr & 0xC000_FF00) = match` for its row, and the count
is `(COUNT_FIELD + 1) mod 2^14`. -/
def Obligations.HeadersSelectTheirRow : Prop :=
  ∀ (hdr : Word) (row : Word × (BitVec 14 → Instr)),
    row ∈ ([(0xC0001000#32, .nop), (0xC0001500#32, .dispatchDirect), (0xC0002700#32, .drawIndex2),
        (0xC0002A00#32, .indexType), (0xC0002D00#32, .drawIndexAuto), (0xC0003700#32, .writeData),
        (0xC0003C00#32, .waitRegMem), (0xC0004700#32, .eventWriteEop), (0xC0004800#32, .eventWriteEos),
        (0xC0005000#32, .dmaData), (0xC0005800#32, .acquireMem), (0xC0006900#32, .setContextReg),
        (0xC0007600#32, .setShReg), (0xC0007900#32, .setUconfigReg)] : List (Word × (BitVec 14 → Instr))) →
    (hdr &&& 0xC000FF00#32 = row.1 ↔
      decodeHeader hdr = .ok (row.2 (BitVec.ofNat 14 ((hdr.toNat / 2 ^ 16 % 2 ^ 14 + 1) % 2 ^ 14))))

/-- R75: "Two headers that differ only in those bits decode to the same packet", bits [7:0], and none of them makes a
fault. -/
def Obligations.LowHeaderBitsAreIgnored : Prop :=
  ∀ hdr hdr' : Word, hdr.toNat / 2 ^ 8 = hdr'.toNat / 2 ^ 8 → decodeHeader hdr = decodeHeader hdr'

/-- A few header words written out in the spec (95_test_vectors.md, Conventions and L2-D) are the packets it says. -/
def Obligations.WrittenHeadersDecode : Prop :=
  decodeHeader 0xC0036900#32 = .ok (.setContextReg 4#14) ∧ decodeHeader 0xC0042700#32 = .ok (.drawIndex2 5#14) ∧
    decodeHeader 0xC0044700#32 = .ok (.eventWriteEop 5#14) ∧ decodeHeader 0xC0002A00#32 = .ok (.indexType 1#14) ∧
    decodeHeader 0xC0012D00#32 = .ok (.drawIndexAuto 2#14) ∧ decodeHeader 0xFFFF1000#32 = .ok (.nop 0#14) ∧
    decodeHeader 0xC0016800#32 = .error (.unknownOpcode 0x68#8 2#14) ∧
    decodeHeader 0x80000000#32 = .error (.unsupportedFamily 2#2)

/-- The EOP operands written by the spec's assembly notation (R93) are read back from the packet's words, for every
address that 48 bits hold: the notation and the fields of R81 to R85 agree. -/
def Obligations.EopOperandsRoundTrip : Prop :=
  ∀ (ev : Word) (addr : DWord) (dsel : BitVec 3) (isel : BitVec 2) (v : DWord), addr.toNat < 2 ^ 48 →
    ∃ w2 w3 w4 w5, assembleEop ev addr dsel isel v = [0xC0044700#32, ev, w2, w3, w4, w5] ∧
      dataSel w3 = dsel ∧ intSel w3 = isel ∧ writeBackAddr 16 w2 w3 = addr ∧ w5 ++ w4 = v

/-! ## The step -/

/-- When the four bytes at the cursor are admitted and decode to the packet `i`, one step is `exec` of `i`
(40_dispatcher.md section 2). The model adds nothing around `exec`: the `Packet` event, the advance and the end of the
stream are in it. -/
def Obligations.StepRunsTheDecodedPacket : Prop :=
  ∀ (s : State) (i : Instr), s.phase = .scanning →
    s.admits (s.streamBase.toNat + s.cursor.toNat) 4 = true →
    decode ((List.range 4).map fun k => s.mem.read (s.streamBase.toNat + s.cursor.toNat + k)) = .ok i →
    step s = exec i s

/-- The decoder has a step only in `Scanning` (40_dispatcher.md section 2); elsewhere `step` is stuck, and under the
invariant the header of a scanning decoder lies inside the stream. That "no step" is the model's fault `noStep` is log
entry 6. -/
def Obligations.NoStepOutsideScanning : Prop :=
  ∀ s : State, (s.phase ≠ .scanning → step s = .fault .noStep) ∧
    (s.Inv → s.phase = .scanning → s.cursor.toNat + 4 ≤ s.streamLen.toNat)

/-- An access that is not admitted has no step (20_memory.md section 1): the header fetch; each payload word that a
register-block write, INDEX_TYPE, a draw or EVENT_WRITE_EOP reads; and the target of a write-back of either width. The
model's form of admissible memory is log entry 3, and the order in which the words of one packet are tried is the
handlers' (log entry 16): increasing, but for EVENT_WRITE_EOP, which reads `P(3)` before `P(2)`. -/
def Obligations.UnadmittedAccessesAreStuck : Prop :=
  (∀ s : State, s.phase = .scanning → s.admits (s.packetAddr 0) 4 = false →
      step s = .fault (.notAdmitted (s.packetAddr 0) 4)) ∧
    (∀ (s : State) (count : BitVec 14) (row : Instr × Nat) (k : Nat),
      row ∈ [(Instr.setContextReg count, 1), (.setShReg count, 1), (.setUconfigReg count, 1), (.indexType count, 1),
          (.drawIndex2 count, 5), (.drawIndexAuto count, 2)] →
      s.Fits row.1 → row.2 ≤ count.toNat → 1 ≤ k → k ≤ row.2 → s.PayloadAdmitted (k - 1) →
      s.admits (s.packetAddr k) 4 = false →
      exec row.1 s = .fault (.notAdmitted (s.packetAddr k) 4)) ∧
    (∀ (s : State) (count : BitVec 14) (row : Instr × Nat) (k : Nat),
      row ∈ [(Instr.setContextReg count, s.params.ctxCap), (.setShReg count, s.params.shCap),
          (.setUconfigReg count, s.params.ucCap)] →
      s.Fits row.1 → (s.packetWord 1).toNat % 2 ^ 16 + (count.toNat - 1) ≤ row.2 →
      2 ≤ k → k ≤ count.toNat → s.PayloadAdmitted (k - 1) → s.admits (s.packetAddr k) 4 = false →
      exec row.1 s = .fault (.notAdmitted (s.packetAddr k) 4)) ∧
    (∀ (s : State) (count : BitVec 14), 5 ≤ count.toNat → s.Fits (.eventWriteEop count) →
      (s.admits (s.packetAddr 3) 4 = false →
        exec (.eventWriteEop count) s = .fault (.notAdmitted (s.packetAddr 3) 4)) ∧
      (s.admits (s.packetAddr 3) 4 = true → s.admits (s.packetAddr 2) 4 = false →
        exec (.eventWriteEop count) s = .fault (.notAdmitted (s.packetAddr 2) 4))) ∧
    (∀ (s : State) (count : BitVec 14) (addr w : Nat), EopChecked s count addr w →
      (s.admits (s.packetAddr 4) 4 = false →
        exec (.eventWriteEop count) s = .fault (.notAdmitted (s.packetAddr 4) 4)) ∧
      (s.admits (s.packetAddr 4) 4 = true → w = 8 → s.admits (s.packetAddr 5) 4 = false →
        exec (.eventWriteEop count) s = .fault (.notAdmitted (s.packetAddr 5) 4))) ∧
    ∀ (s : State) (count : BitVec 14) (addr w v : Nat) (data : StoreData), EopLoaded s count addr w v data →
      s.admits addr w = false → exec (.eventWriteEop count) s = .fault (.notAdmitted addr w)

/-- R104: a header of another family faults with its `TYPE`; nothing is written and the cursor does not move. -/
def Obligations.OtherFamiliesFault : Prop :=
  ∀ s : State, s.phase = .scanning → s.admits (s.packetAddr 0) 4 = true →
    s.headerWord.toNat / 2 ^ 30 ≠ 3 →
    ∃ t, step s = .next t ∧
      FaultEntered s [] .unsupportedPacketFamily s.headerWord (BitVec.ofNat 64 (s.headerWord.toNat / 2 ^ 30)) 0#14 t ∧
      SameRegs s t ∧ SameMem s t

/-- R107 with R88: a type-3 header whose opcode is not one of the 14 faults with the opcode and the count, also where the
packet would overrun the stream. -/
def Obligations.UnknownOpcodesFault : Prop :=
  ∀ s : State, s.phase = .scanning → s.admits (s.packetAddr 0) 4 = true →
    s.headerWord.toNat / 2 ^ 30 = 3 →
    s.headerWord.toNat / 2 ^ 8 % 2 ^ 8 ∉
      [0x10, 0x15, 0x27, 0x2A, 0x2D, 0x37, 0x3C, 0x47, 0x48, 0x50, 0x58, 0x69, 0x76, 0x79] →
    ∃ t, step s = .next t ∧
      FaultEntered s [] .unknownOpcode s.headerWord (BitVec.ofNat 64 (s.headerWord.toNat / 2 ^ 8 % 2 ^ 8))
        (BitVec.ofNat 14 (s.headerWord.toNat / 2 ^ 16 % 2 ^ 14 + 1)) t ∧
      SameRegs s t ∧ SameMem s t

/-- R108: a packet that extends past the stream faults with its size, before its `Packet` event and before any payload
word is read. -/
def Obligations.OverrunningPacketsFault : Prop :=
  ∀ (i : Instr) (s : State), s.streamLen.toNat < s.cursor.toNat + 4 * (i.count.toNat + 1) →
    ∃ t, exec i s = .next t ∧
      FaultEntered s [] .streamOverrun s.headerWord (BitVec.ofNat 64 (4 * (i.count.toNat + 1))) i.count t ∧
      SameRegs s t ∧ SameMem s t

/-- R225: every fault of a step and of `Start` is entered in the one way: the record (the header, or 0 at `Start`, and the
count, or 0 where it is not yet decoded), phase `Faulted`, `halted`, and the `Fault` event. -/
def Obligations.EveryFaultIsEnteredAlike : Prop :=
  (∀ s t : State, step s = .next t → t.phase = .faulted →
      ∃ cause value events,
        FaultEntered s events cause s.headerWord value
          (if s.headerWord.toNat / 2 ^ 30 = 3 then headerCount s.headerWord else 0#14) t) ∧
    ∀ (s t : State) (b : DWord) (l : BitVec 32), s.start b l = .accepted t → t.phase = .faulted →
      FaultEntered { s with streamBase := b, streamLen := l, cursor := 0#32 } [] .streamShapeInvalid 0#32
        (l.setWidth 64) 0#14 t

/-- R220: the eleven causes have the codes 1 to 11, in the table's order. -/
def Obligations.FaultCodesAreOneToEleven : Prop :=
  [FaultCause.unsupportedPacketFamily, .unknownOpcode, .invalidDataSelect, .invalidInterruptSelect,
    .missingInterruptSink, .streamOverrun, .regionBoundsViolation, .malformedPacket, .misalignedWriteBack,
    .writeBackAliasesStream, .streamShapeInvalid].map FaultCause.number = (List.range 11).map (· + 1) ∧
    ∀ a b : FaultCause, a.number = b.number → a = b

/-! ## The instructions -/

/-- R206: every inert packet completes with its `Packet` event as its only effect, with any count, no register and no
byte changed, and without reading its payload (no payload word need be admitted). -/
def Obligations.InertPacketsComplete : Prop :=
  ∀ (s : State) (count : BitVec 14) (row : Instr × BitVec 8 × Handler),
    row ∈ [(Instr.nop count, 0x10#8, Handler.nop), (.dispatchDirect count, 0x15#8, .dispatchDirect),
        (.writeData count, 0x37#8, .writeData), (.waitRegMem count, 0x3C#8, .waitRegMem),
        (.eventWriteEos count, 0x48#8, .eventWriteEos), (.dmaData count, 0x50#8, .dmaData),
        (.acquireMem count, 0x58#8, .acquireMem)] →
    s.Fits row.1 →
    ∃ t, exec row.1 s = .next t ∧ Completed s count [.packet s.cursor row.2.1 count row.2.2] t ∧
      SameRegs s t ∧ SameMem s t

/-- R130 and R131, for the three register-block writes: with a word of payload, a range inside the region and its payload
admitted, the packet completes and copies its data words verbatim to `RF[BASE_R + off ..)`, and no other word and no byte
changes; a packet without payload is malformed; a range that leaves the region faults before any word is written. -/
def Obligations.RegisterBlockWrites : Prop :=
  ∀ (s : State) (count : BitVec 14) (row : Instr × BitVec 8 × Region × Nat × Nat),
    row ∈ [(Instr.setContextReg count, 0x69#8, Region.ctx, s.params.ctxBase, s.params.ctxCap),
        (.setShReg count, 0x76#8, .sh, s.params.shBase, s.params.shCap),
        (.setUconfigReg count, 0x79#8, .uc, s.params.ucBase, s.params.ucCap)] →
    s.Fits row.1 →
    (1 ≤ count.toNat → s.PayloadAdmitted count.toNat →
      (s.packetWord 1).toNat % 2 ^ 16 + (count.toNat - 1) ≤ row.2.2.2.2 →
      ∃ t, exec row.1 s = .next t ∧
        Completed s count [.packet s.cursor row.2.1 count (.setReg row.2.2.1)] t ∧ SameMem s t ∧
        (∀ k, k < count.toNat - 1 →
          t.rf.read (row.2.2.2.1 + (s.packetWord 1).toNat % 2 ^ 16 + k) = s.packetWord (2 + k)) ∧
        ∀ j, j < row.2.2.2.1 + (s.packetWord 1).toNat % 2 ^ 16 ∨
            row.2.2.2.1 + (s.packetWord 1).toNat % 2 ^ 16 + (count.toNat - 1) ≤ j →
          t.rf.read j = s.rf.read j) ∧
    (count = 0#14 →
      ∃ t, exec row.1 s = .next t ∧
        FaultEntered s [.packet s.cursor row.2.1 count (.setReg row.2.2.1)] .malformedPacket s.headerWord 0#64 count
          t ∧ SameRegs s t ∧ SameMem s t) ∧
    (1 ≤ count.toNat → s.PayloadAdmitted 1 →
      row.2.2.2.2 < (s.packetWord 1).toNat % 2 ^ 16 + (count.toNat - 1) →
      ∃ t, exec row.1 s = .next t ∧
        FaultEntered s [.packet s.cursor row.2.1 count (.setReg row.2.2.1)] .regionBoundsViolation s.headerWord
          (BitVec.ofNat 64 ((s.packetWord 1).toNat % 2 ^ 16)) count t ∧ SameRegs s t ∧ SameMem s t)

/-- R23: a register-block write changes no word outside its region, whatever the packet holds and whether it completes
or faults; where its range leaves the region it changes no word at all. -/
def Obligations.RegisterBlockWritesStayInTheirRegion : Prop :=
  ∀ (s t : State) (count : BitVec 14) (row : Instr × Nat × Nat),
    row ∈ [(Instr.setContextReg count, s.params.ctxBase, s.params.ctxCap),
        (.setShReg count, s.params.shBase, s.params.shCap), (.setUconfigReg count, s.params.ucBase, s.params.ucCap)] →
    exec row.1 s = .next t →
    (∀ j, t.rf.read j ≠ s.rf.read j → row.2.1 ≤ j ∧ j < row.2.1 + row.2.2) ∧
    (row.2.2 < (s.packetWord 1).toNat % 2 ^ 16 + (count.toNat - 1) → t.phase = .faulted ∧ SameRegs s t)

/-- R136: a register-block write whose range covers a draw-state index changes that field of the draw-state view to the
data word written there; with the default parameters these are the offsets the rule lists. -/
def Obligations.RegisterWritesReachTheDrawState : Prop :=
  (∀ (s : State) (count : BitVec 14) (row : Instr × Nat × Nat),
    row ∈ [(Instr.setContextReg count, s.params.ctxBase, s.params.ctxCap),
        (.setShReg count, s.params.shBase, s.params.shCap), (.setUconfigReg count, s.params.ucBase, s.params.ucCap)] →
    s.Fits row.1 → 1 ≤ count.toNat → s.PayloadAdmitted count.toNat →
    (s.packetWord 1).toNat % 2 ^ 16 + (count.toNat - 1) ≤ row.2.2 →
    ∃ t, exec row.1 s = .next t ∧ ∀ k, k < count.toNat - 1 →
      (row.2.1 + (s.packetWord 1).toNat % 2 ^ 16 + k = s.params.ixMaxSize →
        t.snapshot.maxIndexSize = s.packetWord (2 + k)) ∧
      (row.2.1 + (s.packetWord 1).toNat % 2 ^ 16 + k = s.params.ixIndexType →
        t.snapshot.indexType = s.packetWord (2 + k)) ∧
      (row.2.1 + (s.packetWord 1).toNat % 2 ^ 16 + k = s.params.ixBaseLo →
        t.snapshot.indexBase.toNat % 2 ^ 32 = (s.packetWord (2 + k)).toNat) ∧
      (row.2.1 + (s.packetWord 1).toNat % 2 ^ 16 + k = s.params.ixBaseHi →
        t.snapshot.indexBase.toNat / 2 ^ 32 = (s.packetWord (2 + k)).toNat) ∧
      (row.2.1 + (s.packetWord 1).toNat % 2 ^ 16 + k = s.params.ixDrawInitiator →
        t.snapshot.drawInitiator = s.packetWord (2 + k)) ∧
      (row.2.1 + (s.packetWord 1).toNat % 2 ^ 16 + k = s.params.ixNumIndices →
        t.snapshot.numIndices = s.packetWord (2 + k))) ∧
  ∀ (s : State), s.params = Params.standard → s.PayloadAdmitted 2 →
    (s.Fits (.setContextReg 2#14) → ∃ t, exec (.setContextReg 2#14) s = .next t ∧
      ((s.packetWord 1).toNat % 2 ^ 16 = 0x1F9 → t.snapshot.indexBase.toNat / 2 ^ 32 = (s.packetWord 2).toNat) ∧
      ((s.packetWord 1).toNat % 2 ^ 16 = 0x1FA → t.snapshot.indexBase.toNat % 2 ^ 32 = (s.packetWord 2).toNat) ∧
      ((s.packetWord 1).toNat % 2 ^ 16 = 0x1FC → t.snapshot.drawInitiator = s.packetWord 2) ∧
      ((s.packetWord 1).toNat % 2 ^ 16 = 0x29E → t.snapshot.maxIndexSize = s.packetWord 2) ∧
      ((s.packetWord 1).toNat % 2 ^ 16 = 0x29F → t.snapshot.indexType = s.packetWord 2)) ∧
    (s.Fits (.setUconfigReg 2#14) → ∃ t, exec (.setUconfigReg 2#14) s = .next t ∧
      ((s.packetWord 1).toNat % 2 ^ 16 = 0x24C → t.snapshot.numIndices = s.packetWord 2))

/-- R150: INDEX_TYPE stores its first payload word whole in `RF[IX_INDEX_TYPE]`, and with no payload word it is
malformed. -/
def Obligations.IndexTypeStoresItsWord : Prop :=
  ∀ (s : State) (count : BitVec 14), s.Fits (.indexType count) →
    (1 ≤ count.toNat → s.PayloadAdmitted 1 →
      ∃ t, exec (.indexType count) s = .next t ∧
        Completed s count [.packet s.cursor 0x2A#8 count .indexType] t ∧ SameMem s t ∧
        t.rf.read s.params.ixIndexType = s.packetWord 1 ∧
        ∀ j, j ≠ s.params.ixIndexType → t.rf.read j = s.rf.read j) ∧
    (count = 0#14 →
      ∃ t, exec (.indexType count) s = .next t ∧
        FaultEntered s [.packet s.cursor 0x2A#8 count .indexType] .malformedPacket s.headerWord 0#64 count t ∧
        SameRegs s t ∧ SameMem s t)

/-- R152 and R153: DRAW_INDEX_2 writes its five words, whole, to the five draw-state words, leaves every other word alone,
and then notifies the backend once, with the snapshot of the state it staged and the index type already there; with fewer
than five payload words it is malformed and writes nothing. -/
def Obligations.DrawIndex2StagesAndNotifies : Prop :=
  ∀ (s : State) (count : BitVec 14), s.params.WellFormed → s.Fits (.drawIndex2 count) →
    (5 ≤ count.toNat → s.PayloadAdmitted 5 →
      ∃ t, exec (.drawIndex2 count) s = .next t ∧
        Completed s count
          [.packet s.cursor 0x27#8 count .drawIndex2,
            .drawNotify .indexed
              { maxIndexSize := s.packetWord 1
                indexType := s.rf.read s.params.ixIndexType
                indexBase := s.packetWord 3 ++ s.packetWord 2
                numIndices := s.packetWord 4
                drawInitiator := s.packetWord 5 }] t ∧
        SameMem s t ∧
        t.rf.read s.params.ixMaxSize = s.packetWord 1 ∧ t.rf.read s.params.ixBaseLo = s.packetWord 2 ∧
        t.rf.read s.params.ixBaseHi = s.packetWord 3 ∧ t.rf.read s.params.ixNumIndices = s.packetWord 4 ∧
        t.rf.read s.params.ixDrawInitiator = s.packetWord 5 ∧
        ∀ j, j ∉ [s.params.ixMaxSize, s.params.ixBaseLo, s.params.ixBaseHi, s.params.ixNumIndices,
            s.params.ixDrawInitiator] → t.rf.read j = s.rf.read j) ∧
    (count.toNat < 5 →
      ∃ t, exec (.drawIndex2 count) s = .next t ∧
        FaultEntered s [.packet s.cursor 0x27#8 count .drawIndex2] .malformedPacket s.headerWord
          (BitVec.ofNat 64 count.toNat) count t ∧
        SameRegs s t ∧ SameMem s t)

/-- R156: DRAW_INDEX_AUTO writes its two words and notifies the backend once, with a snapshot that carries the other
fields as they are; with fewer than two payload words it is malformed and writes nothing. -/
def Obligations.DrawIndexAutoStagesAndNotifies : Prop :=
  ∀ (s : State) (count : BitVec 14), s.params.WellFormed → s.Fits (.drawIndexAuto count) →
    (2 ≤ count.toNat → s.PayloadAdmitted 2 →
      ∃ t, exec (.drawIndexAuto count) s = .next t ∧
        Completed s count
          [.packet s.cursor 0x2D#8 count .drawIndexAuto,
            .drawNotify .auto
              { maxIndexSize := s.rf.read s.params.ixMaxSize
                indexType := s.rf.read s.params.ixIndexType
                indexBase := s.rf.read s.params.ixBaseHi ++ s.rf.read s.params.ixBaseLo
                numIndices := s.packetWord 1
                drawInitiator := s.packetWord 2 }] t ∧
        SameMem s t ∧
        t.rf.read s.params.ixNumIndices = s.packetWord 1 ∧ t.rf.read s.params.ixDrawInitiator = s.packetWord 2 ∧
        ∀ j, j ∉ [s.params.ixNumIndices, s.params.ixDrawInitiator] → t.rf.read j = s.rf.read j) ∧
    (count.toNat < 2 →
      ∃ t, exec (.drawIndexAuto count) s = .next t ∧
        FaultEntered s [.packet s.cursor 0x2D#8 count .drawIndexAuto] .malformedPacket s.headerWord
          (BitVec.ofNat 64 count.toNat) count t ∧
        SameRegs s t ∧ SameMem s t)

/-- R155: a DRAW_INDEX_2 or DRAW_INDEX_AUTO that completes adds exactly one `DrawNotify` to the trace, of its own kind
and with the draw state as the packet leaves it (so after every register write of the packet); any other packet, and any
packet that faults, adds none. -/
def Obligations.DrawsNotifyExactlyOnce : Prop :=
  ∀ (i : Instr) (s t : State), exec i s = .next t → s.phase ≠ .faulted →
    ∃ events, t.trace = s.trace ++ events ∧
      events.filter Event.isDraw =
        if t.phase = .faulted then []
        else if i.handler = .drawIndex2 then [.drawNotify .indexed t.snapshot]
        else if i.handler = .drawIndexAuto then [.drawNotify .auto t.snapshot]
        else []

/-- R171, R173, R174 and R175, in their order of priority: each check of EVENT_WRITE_EOP that fails before the write-back
faults with the value its row names, and writes nothing. Of the payload only `P(2)` and `P(3)` need be admitted. -/
def Obligations.EopChecksBeforeTheWriteBack : Prop :=
  ∀ (s : State) (count : BitVec 14) (w addr : Nat), s.Fits (.eventWriteEop count) →
    w = (if (s.packetWord 3).toNat / 2 ^ 29 = 1 then 4 else 8) →
    addr = (s.packetWord 3).toNat % 2 ^ s.params.addrHiBits * 2 ^ 32 + (s.packetWord 2).toNat →
    (count.toNat < 5 → ∃ t, exec (.eventWriteEop count) s = .next t ∧
      FaultEntered s [.packet s.cursor 0x47#8 count .eventWriteEop] .malformedPacket s.headerWord
        (BitVec.ofNat 64 count.toNat) count t ∧ SameRegs s t ∧ SameMem s t) ∧
    (5 ≤ count.toNat → s.admits (s.packetAddr 2) 4 = true → s.admits (s.packetAddr 3) 4 = true →
      ((s.packetWord 3).toNat / 2 ^ 29 ≠ 1 ∧ (s.packetWord 3).toNat / 2 ^ 29 ≠ 2 →
        ∃ t, exec (.eventWriteEop count) s = .next t ∧
          FaultEntered s [.packet s.cursor 0x47#8 count .eventWriteEop] .invalidDataSelect s.headerWord
            (BitVec.ofNat 64 ((s.packetWord 3).toNat / 2 ^ 29)) count t ∧ SameRegs s t ∧ SameMem s t) ∧
      ((s.packetWord 3).toNat / 2 ^ 29 = 1 ∨ (s.packetWord 3).toNat / 2 ^ 29 = 2 →
        (addr % w ≠ 0 →
          ∃ t, exec (.eventWriteEop count) s = .next t ∧
            FaultEntered s [.packet s.cursor 0x47#8 count .eventWriteEop] .misalignedWriteBack s.headerWord
              (BitVec.ofNat 64 addr) count t ∧ SameRegs s t ∧ SameMem s t) ∧
        (addr % w = 0 →
          (∃ a, addr ≤ a ∧ a < addr + w ∧ s.streamBase.toNat ≤ a ∧
            a < s.streamBase.toNat + s.streamLen.toNat) →
          ∃ t, exec (.eventWriteEop count) s = .next t ∧
            FaultEntered s [.packet s.cursor 0x47#8 count .eventWriteEop] .writeBackAliasesStream s.headerWord
              (BitVec.ofNat 64 addr) count t ∧ SameRegs s t ∧ SameMem s t)))

/-- R176 with R178: past its checks EVENT_WRITE_EOP writes its 4 or 8 bytes, little-endian, and no other byte; it emits
`WriteBack` and then ends (`INT_SEL` 0), or emits one `Irq` after it (`INT_SEL` 2 with a sink). No register changes. -/
def Obligations.EopWritesBackAndInterrupts : Prop :=
  ∀ (s : State) (count : BitVec 14) (addr w v : Nat) (data : StoreData), EopReady s count addr w v data →
    ((s.packetWord 3).toNat / 2 ^ 24 % 4 = 0 →
      ∃ t, exec (.eventWriteEop count) s = .next t ∧
        Completed s count
          [.packet s.cursor 0x47#8 count .eventWriteEop, .writeBack (BitVec.ofNat 64 addr) data] t ∧
        Stored s t addr w v ∧ SameRegs s t) ∧
    ((s.packetWord 3).toNat / 2 ^ 24 % 4 = 2 → s.sinkRegistered = true →
      ∃ t, exec (.eventWriteEop count) s = .next t ∧
        Completed s count
          [.packet s.cursor 0x47#8 count .eventWriteEop, .writeBack (BitVec.ofNat 64 addr) data, .irq] t ∧
        Stored s t addr w v ∧ SameRegs s t)

/-- R177 and R179: after the write-back, `INT_SEL` 0 ends the packet with no interrupt, and an invalid `INT_SEL`, or an
interrupt with no sink, faults; the write-back stays in place and no `Irq` is emitted. -/
def Obligations.EopInterruptSelectComesAfterTheWriteBack : Prop :=
  ∀ (s : State) (count : BitVec 14) (addr w v : Nat) (data : StoreData), EopReady s count addr w v data →
    ((s.packetWord 3).toNat / 2 ^ 24 % 4 = 0 →
      ∃ t, exec (.eventWriteEop count) s = .next t ∧
        Completed s count
          [.packet s.cursor 0x47#8 count .eventWriteEop, .writeBack (BitVec.ofNat 64 addr) data] t ∧
        Stored s t addr w v ∧ SameRegs s t) ∧
    ((s.packetWord 3).toNat / 2 ^ 24 % 4 = 1 ∨ (s.packetWord 3).toNat / 2 ^ 24 % 4 = 3 →
      ∃ t, exec (.eventWriteEop count) s = .next t ∧
        FaultEntered s
          [.packet s.cursor 0x47#8 count .eventWriteEop, .writeBack (BitVec.ofNat 64 addr) data]
          .invalidInterruptSelect s.headerWord (BitVec.ofNat 64 ((s.packetWord 3).toNat / 2 ^ 24 % 4)) count t ∧
        Stored s t addr w v ∧ SameRegs s t) ∧
    ((s.packetWord 3).toNat / 2 ^ 24 % 4 = 2 → s.sinkRegistered = false →
      ∃ t, exec (.eventWriteEop count) s = .next t ∧
        FaultEntered s
          [.packet s.cursor 0x47#8 count .eventWriteEop, .writeBack (BitVec.ofNat 64 addr) data]
          .missingInterruptSink s.headerWord 0#64 count t ∧
        Stored s t addr w v ∧ SameRegs s t)

/-- An 8-byte store read back as two words gives the low word at `addr` and the high word at `addr + 4`, and a 4-byte
store its word (20_memory.md section 2, R55's derived clause). -/
def Obligations.StoresReadBackAsWords : Prop :=
  ∀ (m : Memory) (a : Nat),
    (∀ v : Word, (m.write a (StoreData.bytes (.data32 v))).readWord a = v) ∧
    ∀ v : DWord,
      (m.write a (StoreData.bytes (.data64 v))).readWord a = v.extractLsb' 0 32 ∧
        (m.write a (StoreData.bytes (.data64 v))).readWord (a + 4) = v.extractLsb' 32 32

/-! ## What no step does -/

/-- Memory is written by EVENT_WRITE_EOP alone, and the register file by the register-block writes, INDEX_TYPE and the
two draws alone (20_memory.md section 2, 10_state.md section 1). -/
def Obligations.OnlyTheirHandlersWrite : Prop :=
  ∀ s t : State, step s = .next t →
    ((∀ count, decodeHeader s.headerWord ≠ .ok (.eventWriteEop count)) → SameMem s t) ∧
    ((∀ i, decodeHeader s.headerWord = .ok i →
        i.handler ∉ [.setReg .ctx, .setReg .sh, .setReg .uc, .indexType, .drawIndex2, .drawIndexAuto]) →
      SameRegs s t)

/-- The stream is read-only to the decoder: no step changes a byte of it (20_memory.md section 6). -/
def Obligations.StepsLeaveTheStreamAlone : Prop :=
  ∀ s t : State, step s = .next t →
    ∀ a, s.streamBase.toNat ≤ a → a < s.streamBase.toNat + s.streamLen.toNat → t.mem.read a = s.mem.read a

/-- No packet reads or writes the control state except through the dispatcher, and the trace is only appended to
(10_state.md sections 5 and 6): a step keeps the parameters, the stream latches and the sink; `halted` and the record
change only with a fault. -/
def Obligations.StepsKeepTheControlState : Prop :=
  ∀ s t : State, step s = .next t →
    t.params = s.params ∧ t.streamBase = s.streamBase ∧ t.streamLen = s.streamLen ∧
      t.sinkRegistered = s.sinkRegistered ∧ (∃ events, t.trace = s.trace ++ events) ∧
      (t.phase ≠ .faulted → t.halted = s.halted ∧ t.faultRec = s.faultRec ∧ s.cursor.toNat + 4 ≤ t.cursor.toNat) ∧
      (t.phase = .faulted → t.cursor = s.cursor)

/-- An `Irq` comes only from an EVENT_WRITE_EOP that completes with `INT_SEL` 2 and a sink, and once
(60_exceptions.md section 5). -/
def Obligations.InterruptsComeFromEopOnly : Prop :=
  ∀ s t : State, step s = .next t →
    ∃ events, t.trace = s.trace ++ events ∧
      (∀ i, decodeHeader s.headerWord = .ok i → i.handler = .eventWriteEop → t.phase ≠ .faulted →
        (s.packetWord 3).toNat / 2 ^ 24 % 4 = 2 → events.countP Event.isIrq = 1) ∧
      (0 < events.countP Event.isIrq →
        (∃ i, decodeHeader s.headerWord = .ok i ∧ i.handler = .eventWriteEop) ∧ t.phase ≠ .faulted ∧
          (s.packetWord 3).toNat / 2 ^ 24 % 4 = 2 ∧ s.sinkRegistered = true)

/-- The register file steers nothing: of two states that agree on everything but the register file and the register
values that earlier draws reported, a step makes two that agree so again, or the same fault. So it holds over any number
of steps, and of any two contents of the register file at the start (70_reset_and_hazards.md section 1, R261). -/
def Obligations.RegistersDoNotSteerTheDecoder : Prop :=
  ∀ s u : State, AgreeButRegs s u →
    (∀ t, step s = .next t → ∃ v, step u = .next v ∧ AgreeButRegs t v) ∧
    ∀ f, step s = .fault f → step u = .fault f

/-! ## The host -/

/-- R100: `Start` is refused while halted or scanning; a stream of a bad shape faults at once; an empty stream is done at
once; any other stream is scanned from offset 0. Registers, the sink, memory and the events so far stay. -/
def Obligations.StartLatchesAndChecksTheStream : Prop :=
  ∀ (s : State) (b : DWord) (l : BitVec 32),
    (s.halted = true ∨ s.phase = .scanning → s.start b l = .refused) ∧
    (s.halted = false → s.phase ≠ .scanning →
      (b.toNat % 4 ≠ 0 ∨ l.toNat % 4 ≠ 0 ∨ 2 ^ 64 < b.toNat + l.toNat →
        ∃ t, s.start b l = .accepted t ∧
          FaultEntered { s with streamBase := b, streamLen := l, cursor := 0#32 } [] .streamShapeInvalid 0#32
            (BitVec.ofNat 64 l.toNat) 0#14 t ∧ t.rf = s.rf ∧ t.mem = s.mem) ∧
      (b.toNat % 4 = 0 → l.toNat % 4 = 0 → b.toNat + l.toNat ≤ 2 ^ 64 →
        (l = 0#32 → s.start b l = .accepted
          { s with streamBase := b, streamLen := l, cursor := 0#32, phase := .done,
                   trace := s.trace ++ [.streamDone 0#32] }) ∧
        (l ≠ 0#32 → s.start b l = .accepted
          { s with streamBase := b, streamLen := l, cursor := 0#32, phase := .scanning })))

/-- R236: a sink is registered once, and not while a stream is scanned. -/
def Obligations.SinkIsRegisteredOnce : Prop :=
  ∀ s : State,
    (s.sinkRegistered = true ∨ s.phase = .scanning → s.registerSink = .refused) ∧
    (s.sinkRegistered = false → s.phase ≠ .scanning →
      s.registerSink = .accepted { s with sinkRegistered := true })

/-- R228: after a fault the decoder stays halted until reset: it has no step, `Start` is refused, and a sink can still be
registered where none is, which leaves it halted; reset leaves it idle and no longer halted. -/
def Obligations.FaultedDecoderStaysHalted : Prop :=
  ∀ s : State, s.Inv → s.phase = .faulted →
    s.halted = true ∧ step s = .fault .noStep ∧ (∀ b l, s.start b l = .refused) ∧
      (s.sinkRegistered = false →
        ∃ t, s.registerSink = .accepted t ∧ t.phase = .faulted ∧ t.halted = true ∧ step t = .fault .noStep) ∧
      s.resetDecoder.phase = .idle ∧ s.resetDecoder.halted = false

/-- The state after reset (70_reset_and_hazards.md section 1), and that reset changes neither host memory nor the
parameters. The clauses on the register file are the MODEL'S CHOICE: each word after reset is the constant without a value
`Config.rf0`, and so every reset leaves the same words (log entry 1, DESIGN CHOICE, unsafe), where the spec leaves the
words unspecified. -/
def Obligations.ResetLeavesTheStatedValues : Prop :=
  (∀ i, State.reset.rf.read i = Config.rf0 i) ∧ State.reset.sinkRegistered = false ∧ State.reset.halted = false ∧
    State.reset.phase = .idle ∧ State.reset.cursor = 0#32 ∧ State.reset.streamBase = 0#64 ∧
    State.reset.streamLen = 0#32 ∧ State.reset.faultRec = none ∧ State.reset.trace = [] ∧
    ∀ s : State, s.resetDecoder = { State.reset with params := s.params, mem := s.mem }

/-- The default parameters satisfy every constraint of R11, and the draw-state indices lie in the regions that
00_scope.md section 5 says (R12, which the spec derives). -/
def Obligations.DefaultParametersAreValid : Prop :=
  Params.standard.WellFormed ∧
    (∀ i ∈ [Params.standard.ixBaseHi, Params.standard.ixBaseLo, Params.standard.ixDrawInitiator,
        Params.standard.ixMaxSize, Params.standard.ixIndexType], 0xA000 ≤ i ∧ i < 0xC000) ∧
    0xC000 ≤ Params.standard.ixNumIndices ∧ Params.standard.ixNumIndices < 0xD000

/-! ## Invariants and whole runs -/

/-- Every step keeps the invariant (10_state.md sections 4 and 5, 60_exceptions.md section 2, and the canonical forms of
memory and of the register file, which are the model's own, log entries 1 and 4). -/
def Obligations.StepsKeepTheInvariant : Prop :=
  ∀ s t : State, s.Inv → step s = .next t → t.Inv

/-- Every host transaction keeps the invariant. -/
def Obligations.HostTransactionsKeepTheInvariant : Prop :=
  ∀ s : State, s.Inv →
    (∀ b l t, s.start b l = .accepted t → t.Inv) ∧ (∀ t, s.registerSink = .accepted t → t.Inv) ∧
      (∀ a bs t, s.hostStore a bs = .accepted t → t.Inv) ∧ s.resetDecoder.Inv

/-- Reset has the invariant, with any valid parameters and any memory in canonical form. -/
def Obligations.ResetHasTheInvariant : Prop :=
  State.reset.Inv ∧
    ∀ (p : Params) (m : Memory), p.WellFormed → m.wf → (∀ c ∈ m, c.1 < 2 ^ 64) →
      { State.reset with params := p, mem := m }.Inv

/-- "There is at most one fault per reset" (60_exceptions.md section 2): in every reachable state the trace holds at most
one `Fault` event, and holds one exactly when the decoder is halted. -/
def Obligations.AtMostOneFaultPerReset : Prop :=
  ∀ s : State, Reachable s →
    s.trace.countP Event.isFault = if s.halted = true then 1 else 0

/-- Every step keeps each `Irq` of the trace right after the `WriteBack` of its own packet (60_exceptions.md section 5,
R235, which the spec derives). -/
def Obligations.IrqsFollowTheirWriteBack : Prop :=
  ∀ s t : State, IrqsConfirmed s.trace → step s = .next t → IrqsConfirmed t.trace

/-- Round-trip completeness (40_dispatcher.md section 5, R112, which the spec derives): in a run from offset 0 that ends
`Done`, the packets tile `[0, stream_len)` with no gap and no overlap. -/
def Obligations.CompletedStreamsAreTiled : Prop :=
  ∀ (n : Nat) (s t : State), s.phase = .scanning → s.cursor = 0#32 →
    Host.Core.run Sys2Proof.core n s = .next t → t.phase = .done →
    ∃ events, t.trace = s.trace ++ events ∧ tiledFrom 0 events = some s.streamLen.toNat

/-- Termination (40_dispatcher.md section 5, R113, which the spec derives): where every address is admitted, a stream ends
`Done` or `Faulted` within `stream_len / 4` steps. -/
def Obligations.StreamsTerminate : Prop :=
  ∀ s : State, s.Inv → s.params.holes = [] → s.phase = .scanning →
    ∃ n t, n ≤ s.streamLen.toNat / 4 ∧ Host.Core.run Sys2Proof.core n s = .next t ∧
      (t.phase = .done ∨ t.phase = .faulted)

/-- The step lemma behind round-trip completeness (40_dispatcher.md section 5): after an accepted `Start` the packets of
the trace tile `[0, cursor)`, and every step keeps it so, as long as the decoder has not faulted. -/
def Obligations.StepsKeepTheTiling : Prop :=
  (∀ (s t : State) (b : DWord) (l : BitVec 32), s.start b l = .accepted t → t.TiledSince s.trace) ∧
    ∀ (pre : List Event) (s t : State), s.TiledSince pre → step s = .next t → t.TiledSince pre

/-- The step lemma behind termination (40_dispatcher.md section 5): where every address is admitted, a scanning decoder
has a next state, and there it has faulted or its cursor is at least 4 higher. -/
def Obligations.StepsMakeProgress : Prop :=
  ∀ s : State, s.Inv → s.params.holes = [] → s.phase = .scanning →
    ∃ t, step s = .next t ∧ (t.phase = .faulted ∨ s.cursor.toNat + 4 ≤ t.cursor.toNat)
end

