-- ==== Sys2Proof/Laws/Decode.lean ====
section
/-! SUPPORT. The small lemmas of the header fields, the routing table and the byte order. -/

namespace Sys2Proof

/-- The top two bits of a made header are binary 11 (R71, R86). -/
theorem headerType_makeHeader (op : BitVec 8) (c : BitVec 14) (l : BitVec 8) :
    headerType (makeHeader op c l) = 3#2 := by
  ext i hi
  simp only [headerType, makeHeader]
  interval_cases i <;> simp

/-- The opcode field of a made header (R72, R86). -/
theorem headerOpcode_makeHeader (op : BitVec 8) (c : BitVec 14) (l : BitVec 8) :
    headerOpcode (makeHeader op c l) = op := by
  ext i hi
  simp only [headerOpcode, makeHeader]
  interval_cases i <;> simp

/-- A 14-bit field placed at bits [29:16] beside the other header fields is read back. -/
theorem countField_placed (d : BitVec 14) (op l : BitVec 8) :
    headerCountField (0xC0000000#32 ||| (d.setWidth 32 <<< 16) ||| (op.setWidth 32 <<< 8) ||| l.setWidth 32) =
      d := by
  ext i hi
  simp only [headerCountField]
  interval_cases i <;> simp

/-- The count field of a made header (R72, R86). -/
theorem headerCountField_makeHeader (op : BitVec 8) (c : BitVec 14) (l : BitVec 8) :
    headerCountField (makeHeader op c l) = c - 1#14 :=
  countField_placed (c - 1#14) op l

/-- The count of a made header (R73, R86). -/
theorem headerCount_makeHeader (op : BitVec 8) (c : BitVec 14) (l : BitVec 8) :
    headerCount (makeHeader op c l) = c := by
  rw [headerCount, headerCountField_makeHeader, BitVec.sub_add_cancel]

/-- Every handler id is routed to by its own opcode. -/
theorem route_opcode (h : Handler) : route h.opcode = some h := by
  cases h with
  | setReg r => cases r <;> rfl
  | _ => rfl

/-- A routed opcode is the handler's own. -/
theorem opcode_of_route (op : BitVec 8) (h : Handler) (hr : route op = some h) : op = h.opcode := by
  unfold route at hr
  rw [Option.map_eq_some_iff] at hr
  obtain ⟨r, hr, rfl⟩ := hr
  have hm := List.mem_of_find?_eq_some hr
  have hp := List.find?_some hr
  rw [beq_iff_eq] at hp
  subst hp
  revert r
  decide

/-- The packet made from a handler id and a count has them. -/
@[simp] theorem Handler.handler_instr (h : Handler) (c : BitVec 14) : (h.instr c).handler = h := by
  cases h with
  | setReg r => cases r <;> rfl
  | _ => rfl

@[simp] theorem Handler.count_instr (h : Handler) (c : BitVec 14) : (h.instr c).count = c := by
  cases h with
  | setReg r => cases r <;> rfl
  | _ => rfl

/-- A packet is its handler id and its count, and nothing else (R102, R110). -/
theorem Instr.instr_handler (i : Instr) : i.handler.instr i.count = i := by
  cases i <;> rfl

/-- A header of type 3 is decoded by its opcode. -/
theorem decodeHeader_type3 (hdr : Word) (h : headerType hdr = 3#2) :
    decodeHeader hdr =
      match route (headerOpcode hdr) with
      | some hd => .ok (hd.instr (headerCount hdr))
      | none => .error (.unknownOpcode (headerOpcode hdr) (headerCount hdr)) := by
  unfold decodeHeader
  exact if_pos h

theorem decodeHeader_other (hdr : Word) (h : headerType hdr ≠ 3#2) :
    decodeHeader hdr = .error (.unsupportedFamily (headerType hdr)) := by
  simp [decodeHeader, h]

/-- All that the header parse can answer. -/
theorem decodeHeader_ok (hdr : Word) (i : Instr) (h : decodeHeader hdr = .ok i) :
    headerType hdr = 3#2 ∧ headerOpcode hdr = i.opcode ∧ headerCount hdr = i.count := by
  by_cases ht : headerType hdr = 3#2
  · rw [decodeHeader_type3 hdr ht] at h
    cases hr : route (headerOpcode hdr) with
    | none => simp [hr] at h
    | some hd =>
      simp only [hr, Except.ok.injEq] at h
      subst h
      exact ⟨ht, by simp [Instr.opcode, ← opcode_of_route _ _ hr], by simp⟩
  · rw [decodeHeader_other hdr ht] at h
    cases h

/-- Four little-endian bytes of a word are the word (R53). -/
theorem wordOfBytes_leBytes (w : Word) :
    wordOfBytes (w.extractLsb' 0 8) (w.extractLsb' 8 8) (w.extractLsb' 16 8) (w.extractLsb' 24 8) = w := by
  apply BitVec.eq_of_getLsbD_eq
  intro i hi
  have h : (wordOfBytes (w.extractLsb' 0 8) (w.extractLsb' 8 8) (w.extractLsb' 16 8) (w.extractLsb' 24 8)).getLsbD i =
      ((((w.extractLsb' 24 8 ++ w.extractLsb' 16 8) ++ w.extractLsb' 8 8) ++ w.extractLsb' 0 8).getLsbD i) := rfl
  rw [h]
  simp only [BitVec.getLsbD_append, BitVec.getLsbD_extractLsb']
  interval_cases i <;> simp

theorem leBytes_word (w : Word) :
    leBytes 4 w = [w.extractLsb' 0 8, w.extractLsb' 8 8, w.extractLsb' 16 8, w.extractLsb' 24 8] := rfl

/-- The mask test of R87 is the test of the two fields it keeps. -/
theorem headerMask_iff (hdr : Word) (op : BitVec 8) :
    hdr &&& 0xC000FF00#32 = 0xC0000000#32 ||| (op.setWidth 32 <<< 8) ↔
      headerType hdr = 3#2 ∧ headerOpcode hdr = op := by
  constructor
  · intro h
    have hb : ∀ i, (hdr &&& 0xC000FF00#32).getLsbD i =
        (0xC0000000#32 ||| (op.setWidth 32 <<< 8)).getLsbD i := by
      intro i
      rw [h]
    constructor
    · apply BitVec.eq_of_getLsbD_eq
      intro i hi
      have := hb (30 + i)
      simp only [BitVec.getLsbD_and, BitVec.getLsbD_or, BitVec.getLsbD_shiftLeft,
        BitVec.getLsbD_setWidth] at this
      clear h hb
      simp only [headerType, BitVec.getLsbD_extractLsb']
      interval_cases i <;> simp_all
    · apply BitVec.eq_of_getLsbD_eq
      intro i hi
      have := hb (8 + i)
      simp only [BitVec.getLsbD_and, BitVec.getLsbD_or, BitVec.getLsbD_shiftLeft,
        BitVec.getLsbD_setWidth] at this
      clear h hb
      simp only [headerOpcode, BitVec.getLsbD_extractLsb']
      interval_cases i <;> simp_all
  · rintro ⟨h1, h2⟩
    apply BitVec.eq_of_getLsbD_eq
    intro i hi
    have ht : ∀ k, (headerType hdr).getLsbD k = (3#2).getLsbD k := by intro k; rw [h1]
    have ho : ∀ k, (headerOpcode hdr).getLsbD k = op.getLsbD k := by intro k; rw [h2]
    simp only [headerType, headerOpcode, BitVec.getLsbD_extractLsb'] at ht ho
    have t0 := ht 0
    have t1 := ht 1
    simp only [BitVec.getLsbD_and, BitVec.getLsbD_or, BitVec.getLsbD_shiftLeft, BitVec.getLsbD_setWidth]
    by_cases h8 : 8 ≤ i ∧ i < 16
    · have := ho (i - 8)
      have e : 8 + (i - 8) = i := by omega
      rw [e] at this
      obtain ⟨a, b⟩ := h8
      interval_cases i <;> simp_all
    · interval_cases i <;> simp_all

/-- The fields of a made header, put side by side (R72, R86). -/
theorem header_fields_append (d : BitVec 14) (op l : BitVec 8) :
    0xC0000000#32 ||| (d.setWidth 32 <<< 16) ||| (op.setWidth 32 <<< 8) ||| l.setWidth 32 =
      (3#2 ++ d ++ op ++ l : BitVec 32) := by
  apply BitVec.eq_of_getLsbD_eq
  intro i hi
  have h : ((((3#2 ++ d) ++ op) ++ l : BitVec 32)).getLsbD i = ((((3#2 ++ d) ++ op) ++ l).getLsbD i) := rfl
  rw [h]
  simp only [BitVec.getLsbD_append, BitVec.getLsbD_or, BitVec.getLsbD_shiftLeft, BitVec.getLsbD_setWidth]
  interval_cases i <;> simp

end Sys2Proof
end

