-- ==== Sys2Proof/Laws/Memory.lean ====
section
/-! SUPPORT. The laws of memory and of the register file: what a read after a write gives, and that every operation
keeps the canonical form. None of the read laws needs the canonical form as a hypothesis. -/

namespace Sys2Proof.Machine

/-! ## Lookup in a list of keyed entries -/

theorem find_filter_of_key {α : Type} (l : List (Nat × α)) (p : Nat × α → Bool) (k : Nat)
    (h : ∀ c ∈ l, c.1 = k → p c = true) :
    (l.filter p).find? (fun c => c.1 == k) = l.find? (fun c => c.1 == k) := by
  induction l with
  | nil => rfl
  | cons c l ih =>
    have ih := ih (fun d hd => h d (List.mem_cons_of_mem _ hd))
    by_cases hk : c.1 = k
    · simp [h c List.mem_cons_self hk, hk]
    · by_cases hp : p c = true
      · simp [hp, hk, ih]
      · simp [hp, hk, ih]

theorem find_filter_none {α : Type} (l : List (Nat × α)) (p : Nat × α → Bool) (k : Nat)
    (h : ∀ c ∈ l, p c = true → c.1 ≠ k) : (l.filter p).find? (fun c => c.1 == k) = none := by
  rw [List.find?_eq_none]
  intro c hc
  rw [List.mem_filter] at hc
  simpa using h c hc.1 hc.2

/-- Lookup where the middle of a split write decides, and outside it. -/
theorem find_splice {α : Type} (l mid : List (Nat × α)) (a n k : Nat)
    (hmid : ∀ c ∈ mid, a ≤ c.1 ∧ c.1 < a + n) :
    (l.filter (fun c => c.1 < a) ++ mid ++ l.filter (fun c => a + n ≤ c.1)).find? (fun c => c.1 == k) =
      if a ≤ k ∧ k < a + n then mid.find? (fun c => c.1 == k) else l.find? (fun c => c.1 == k) := by
  rw [List.find?_append, List.find?_append]
  have hnone : ¬ (a ≤ k ∧ k < a + n) → mid.find? (fun c => c.1 == k) = none := by
    intro hk
    rw [List.find?_eq_none]
    intro c hc hck
    have := hmid c hc
    simp only [beq_iff_eq] at hck
    omega
  split
  · next hk =>
    rw [find_filter_none l _ k (by intro c _ hc; simp only [decide_eq_true_eq] at hc; omega)]
    rw [find_filter_none l _ k (by intro c _ hc; simp only [decide_eq_true_eq] at hc; omega)]
    simp
  · next hk =>
    rw [hnone hk]
    by_cases hlt : k < a
    · rw [find_filter_of_key l _ k (by intro c _ hc; simp only [decide_eq_true_eq]; omega)]
      rw [find_filter_none l _ k (by intro c _ hc; simp only [decide_eq_true_eq] at hc; omega)]
      simp
    · rw [find_filter_none l _ k (by intro c _ hc; simp only [decide_eq_true_eq] at hc; omega)]
      rw [find_filter_of_key l _ k (by intro c _ hc; simp only [decide_eq_true_eq]; omega)]
      simp

/-- Splicing sorted entries into a sorted list keeps it sorted. -/
theorem pairwise_splice {α : Type} (l mid : List (Nat × α)) (a n : Nat)
    (hl : l.Pairwise (fun c d => c.1 < d.1)) (hm : mid.Pairwise (fun c d => c.1 < d.1))
    (hmid : ∀ c ∈ mid, a ≤ c.1 ∧ c.1 < a + n) :
    (l.filter (fun c => c.1 < a) ++ mid ++ l.filter (fun c => a + n ≤ c.1)).Pairwise
      (fun c d => c.1 < d.1) := by
  rw [List.pairwise_append, List.pairwise_append]
  refine ⟨⟨hl.filter _, hm, ?_⟩, hl.filter _, ?_⟩
  · intro c hc d hd
    have := hmid d hd
    simp only [List.mem_filter, decide_eq_true_eq] at hc
    omega
  · intro c hc d hd
    simp only [List.mem_filter, decide_eq_true_eq] at hd
    rw [List.mem_append] at hc
    rcases hc with hc | hc
    · simp only [List.mem_filter, decide_eq_true_eq] at hc
      omega
    · have := hmid c hc
      omega

/-! ## Memory -/

theorem memoryCells_keys (bs : List Byte) (a : Nat) :
    ∀ c ∈ memoryCells a bs, a ≤ c.1 ∧ c.1 < a + bs.length := by
  induction bs generalizing a with
  | nil => intro c hc; simp [memoryCells] at hc
  | cons b bs ih =>
    intro c hc
    have ih := ih (a + 1) c
    simp only [memoryCells] at hc
    simp only [List.length_cons]
    split at hc
    · have := ih hc; omega
    · rw [List.mem_cons] at hc
      rcases hc with rfl | hc
      · simp only; omega
      · have := ih hc; omega

theorem memoryCells_pairwise (bs : List Byte) (a : Nat) :
    (memoryCells a bs).Pairwise (fun c d => c.1 < d.1) := by
  induction bs generalizing a with
  | nil => simp [memoryCells]
  | cons b bs ih =>
    simp only [memoryCells]
    split
    · exact ih (a + 1)
    · rw [List.pairwise_cons]
      refine ⟨?_, ih (a + 1)⟩
      intro d hd
      have := memoryCells_keys bs (a + 1) d hd
      simp only
      omega

theorem memoryCells_listed (bs : List Byte) (a : Nat) : ∀ c ∈ memoryCells a bs, c.2 ≠ unlistedByte := by
  induction bs generalizing a with
  | nil => intro c hc; simp [memoryCells] at hc
  | cons b bs ih =>
    intro c hc
    simp only [memoryCells] at hc
    split at hc
    · exact ih (a + 1) c hc
    · next hb =>
      rw [List.mem_cons] at hc
      rcases hc with rfl | hc
      · exact hb
      · exact ih (a + 1) c hc

theorem memoryCells_read (bs : List Byte) (a k : Nat) (hk : k < bs.length) :
    Memory.read (memoryCells a bs) (a + k) = bs[k] := by
  induction bs generalizing a k with
  | nil => simp at hk
  | cons b bs ih =>
    have miss : k = 0 → (memoryCells (a + 1) bs).find? (fun c => c.1 == a + k) = none := by
      intro h0
      rw [List.find?_eq_none]
      intro c hc hck
      have := memoryCells_keys bs (a + 1) c hc
      simp only [beq_iff_eq] at hck
      omega
    cases k with
    | zero =>
      simp only [memoryCells]
      split
      · next hb =>
        have := miss rfl
        simp only [Nat.add_zero] at this
        simp [Memory.read, this, hb]
      · simp [Memory.read]
    | succ k =>
      have h := ih (a + 1) k (by simpa using hk)
      have e : a + (k + 1) = a + 1 + k := by omega
      simp only [memoryCells, e, List.getElem_cons_succ]
      split
      · exact h
      · rw [← h]
        have hne : (a == a + 1 + k) = false := by simp; omega
        simp [Memory.read, hne]

/-- The ONE law of reads after writes: the bytes written, at their addresses, and every other byte as before. -/
theorem Memory.read_write (m : Memory) (a : Nat) (bs : List Byte) (k : Nat) :
    (m.write a bs).read k = if h : a ≤ k ∧ k < a + bs.length then bs[k - a] else m.read k := by
  unfold Memory.write Memory.read
  rw [find_splice m (memoryCells a bs) a bs.length k (memoryCells_keys bs a)]
  by_cases h : a ≤ k ∧ k < a + bs.length
  · have := memoryCells_read bs a (k - a) (by omega)
    rw [show a + (k - a) = k by omega] at this
    rw [if_pos h, dif_pos h, ← this]
    rfl
  · rw [if_neg h, dif_neg h]

theorem Memory.read_write_of_outside (m : Memory) (a : Nat) (bs : List Byte) (k : Nat)
    (h : k < a ∨ a + bs.length ≤ k) : (m.write a bs).read k = m.read k := by
  rw [Memory.read_write, dif_neg (by omega)]

theorem Memory.read_write_of_inside (m : Memory) (a : Nat) (bs : List Byte) (k : Nat) (h : k < bs.length) :
    (m.write a bs).read (a + k) = bs[k] := by
  rw [Memory.read_write, dif_pos (by omega)]
  simp

/-- A write keeps the canonical form. -/
theorem Memory.write_wf (m : Memory) (a : Nat) (bs : List Byte) (h : m.wf) : (m.write a bs).wf := by
  refine ⟨pairwise_splice m _ a bs.length h.1 (memoryCells_pairwise bs a) (memoryCells_keys bs a), ?_⟩
  intro c hc
  simp only [Memory.write, List.mem_append, List.mem_filter] at hc
  rcases hc with (hc | hc) | hc
  · exact h.2 c hc.1
  · exact memoryCells_listed bs a c hc
  · exact h.2 c hc.1

/-- A write inside `[0, hi)` keeps every entry below `hi`. -/
theorem Memory.write_inside (m : Memory) (a hi : Nat) (bs : List Byte) (h : ∀ c ∈ m, c.1 < hi)
    (hb : a + bs.length ≤ hi) : ∀ c ∈ m.write a bs, c.1 < hi := by
  intro c hc
  simp only [Memory.write, List.mem_append, List.mem_filter] at hc
  rcases hc with (hc | hc) | hc
  · exact h c hc.1
  · have := memoryCells_keys bs a c hc; omega
  · exact h c hc.1

/-- Clearing a range is a write of bytes that an unlisted address would read as. -/
theorem Memory.read_clear (m : Memory) (a n k : Nat) :
    (m.clear a n).read k = if a ≤ k ∧ k < a + n then unlistedByte else m.read k := by
  have h := find_splice m [] a n k (by simp)
  simp only [List.append_nil] at h
  unfold Memory.clear Memory.read
  rw [h]
  by_cases hk : a ≤ k ∧ k < a + n
  · rw [if_pos hk, if_pos hk]
    rfl
  · rw [if_neg hk, if_neg hk]

theorem Memory.clear_wf (m : Memory) (a n : Nat) (h : m.wf) : (m.clear a n).wf := by
  have hp := pairwise_splice m [] a n h.1 (by simp) (by simp)
  simp only [List.append_nil] at hp
  refine ⟨hp, ?_⟩
  intro c hc
  simp only [Memory.clear, List.mem_append, List.mem_filter] at hc
  rcases hc with hc | hc
  · exact h.2 c hc.1
  · exact h.2 c hc.1

/-- A word is read from four bytes that two memories agree on. -/
theorem Memory.readWord_congr (m m' : Memory) (a : Nat) (h : ∀ k, a ≤ k → k < a + 4 → m'.read k = m.read k) :
    m'.readWord a = m.readWord a := by
  unfold Memory.readWord
  rw [h a (by omega) (by omega), h (a + 1) (by omega) (by omega), h (a + 2) (by omega) (by omega),
    h (a + 3) (by omega) (by omega)]

/-! ## The register file -/

theorem regCells_keys (ws : List Word) (i : Nat) : ∀ c ∈ regCells i ws, i ≤ c.1 ∧ c.1 < i + ws.length := by
  induction ws generalizing i with
  | nil => intro c hc; simp [regCells] at hc
  | cons w ws ih =>
    intro c hc
    simp only [regCells, List.mem_cons] at hc
    simp only [List.length_cons]
    rcases hc with rfl | hc
    · simp only; omega
    · have := ih (i + 1) c hc; omega

theorem regCells_pairwise (ws : List Word) (i : Nat) : (regCells i ws).Pairwise (fun c d => c.1 < d.1) := by
  induction ws generalizing i with
  | nil => simp [regCells]
  | cons w ws ih =>
    simp only [regCells]
    rw [List.pairwise_cons]
    refine ⟨?_, ih (i + 1)⟩
    intro d hd
    have := regCells_keys ws (i + 1) d hd
    simp only
    omega

theorem regCells_read (ws : List Word) (i k : Nat) (hk : k < ws.length) :
    RegFile.read (regCells i ws) (i + k) = ws[k] := by
  induction ws generalizing i k with
  | nil => simp at hk
  | cons w ws ih =>
    cases k with
    | zero => simp [RegFile.read, regCells]
    | succ k =>
      have h := ih (i + 1) k (by simpa using hk)
      have e : i + (k + 1) = i + 1 + k := by omega
      have hne : (i == i + 1 + k) = false := by simp; omega
      simp only [List.getElem_cons_succ, e]
      rw [← h]
      simp [RegFile.read, regCells, hne]

/-- The ONE law of register reads after writes. -/
theorem RegFile.read_write (rf : RegFile) (i : Nat) (ws : List Word) (k : Nat) :
    (rf.write i ws).read k = if h : i ≤ k ∧ k < i + ws.length then ws[k - i] else rf.read k := by
  unfold RegFile.write RegFile.read
  rw [find_splice rf (regCells i ws) i ws.length k (regCells_keys ws i)]
  by_cases h : i ≤ k ∧ k < i + ws.length
  · have := regCells_read ws i (k - i) (by omega)
    rw [show i + (k - i) = k by omega] at this
    rw [if_pos h, dif_pos h, ← this]
    rfl
  · rw [if_neg h, dif_neg h]

theorem RegFile.read_write_one (rf : RegFile) (i : Nat) (w : Word) (k : Nat) :
    (rf.write i [w]).read k = if k = i then w else rf.read k := by
  rw [RegFile.read_write]
  by_cases h : k = i
  · subst h; simp
  · rw [dif_neg (by simp; omega), if_neg h]

/-- A write keeps the canonical form. -/
theorem RegFile.write_wf (rf : RegFile) (i : Nat) (ws : List Word) (h : rf.wf) : (rf.write i ws).wf :=
  pairwise_splice rf _ i ws.length h (regCells_pairwise ws i) (regCells_keys ws i)

/-- A write inside `[0, hi)` keeps every entry below `hi`. -/
theorem RegFile.write_inside (rf : RegFile) (i hi : Nat) (ws : List Word) (h : ∀ c ∈ rf, c.1 < hi)
    (hb : i + ws.length ≤ hi) : ∀ c ∈ rf.write i ws, c.1 < hi := by
  intro c hc
  simp only [RegFile.write, List.mem_append, List.mem_filter] at hc
  rcases hc with (hc | hc) | hc
  · exact h c hc.1
  · have := regCells_keys ws i c hc; omega
  · exact h c hc.1

end Sys2Proof.Machine
end

