-- ==== Sys2Proof/Laws/State.lean ====
section
/-! SUPPORT. One lemma per field per state update, so that no proof unfolds a record update. -/

namespace Sys2Proof.Machine

/-! ### `State.emit` -/

@[simp] theorem State.emit_params (s : State) (e : Event) :
    (s.emit e).params = s.params := rfl

@[simp] theorem State.emit_rf (s : State) (e : Event) :
    (s.emit e).rf = s.rf := rfl

@[simp] theorem State.emit_sinkRegistered (s : State) (e : Event) :
    (s.emit e).sinkRegistered = s.sinkRegistered := rfl

@[simp] theorem State.emit_halted (s : State) (e : Event) :
    (s.emit e).halted = s.halted := rfl

@[simp] theorem State.emit_phase (s : State) (e : Event) :
    (s.emit e).phase = s.phase := rfl

@[simp] theorem State.emit_cursor (s : State) (e : Event) :
    (s.emit e).cursor = s.cursor := rfl

@[simp] theorem State.emit_streamBase (s : State) (e : Event) :
    (s.emit e).streamBase = s.streamBase := rfl

@[simp] theorem State.emit_streamLen (s : State) (e : Event) :
    (s.emit e).streamLen = s.streamLen := rfl

@[simp] theorem State.emit_faultRec (s : State) (e : Event) :
    (s.emit e).faultRec = s.faultRec := rfl

@[simp] theorem State.emit_trace (s : State) (e : Event) :
    (s.emit e).trace = s.trace ++ [e] := rfl

@[simp] theorem State.emit_mem (s : State) (e : Event) :
    (s.emit e).mem = s.mem := rfl

/-! ### `State.emitPacket` -/

@[simp] theorem State.emitPacket_params (s : State) (i : Instr) :
    (s.emitPacket i).params = s.params := rfl

@[simp] theorem State.emitPacket_rf (s : State) (i : Instr) :
    (s.emitPacket i).rf = s.rf := rfl

@[simp] theorem State.emitPacket_sinkRegistered (s : State) (i : Instr) :
    (s.emitPacket i).sinkRegistered = s.sinkRegistered := rfl

@[simp] theorem State.emitPacket_halted (s : State) (i : Instr) :
    (s.emitPacket i).halted = s.halted := rfl

@[simp] theorem State.emitPacket_phase (s : State) (i : Instr) :
    (s.emitPacket i).phase = s.phase := rfl

@[simp] theorem State.emitPacket_cursor (s : State) (i : Instr) :
    (s.emitPacket i).cursor = s.cursor := rfl

@[simp] theorem State.emitPacket_streamBase (s : State) (i : Instr) :
    (s.emitPacket i).streamBase = s.streamBase := rfl

@[simp] theorem State.emitPacket_streamLen (s : State) (i : Instr) :
    (s.emitPacket i).streamLen = s.streamLen := rfl

@[simp] theorem State.emitPacket_faultRec (s : State) (i : Instr) :
    (s.emitPacket i).faultRec = s.faultRec := rfl

@[simp] theorem State.emitPacket_trace (s : State) (i : Instr) :
    (s.emitPacket i).trace = s.trace ++ [.packet s.cursor i.opcode i.count i.handler] := rfl

@[simp] theorem State.emitPacket_mem (s : State) (i : Instr) :
    (s.emitPacket i).mem = s.mem := rfl

/-! ### `State.setReg` -/

@[simp] theorem State.setReg_params (s : State) (k : Nat) (v : Word) :
    (s.setReg k v).params = s.params := rfl

@[simp] theorem State.setReg_rf (s : State) (k : Nat) (v : Word) :
    (s.setReg k v).rf = s.rf.write k [v] := rfl

@[simp] theorem State.setReg_sinkRegistered (s : State) (k : Nat) (v : Word) :
    (s.setReg k v).sinkRegistered = s.sinkRegistered := rfl

@[simp] theorem State.setReg_halted (s : State) (k : Nat) (v : Word) :
    (s.setReg k v).halted = s.halted := rfl

@[simp] theorem State.setReg_phase (s : State) (k : Nat) (v : Word) :
    (s.setReg k v).phase = s.phase := rfl

@[simp] theorem State.setReg_cursor (s : State) (k : Nat) (v : Word) :
    (s.setReg k v).cursor = s.cursor := rfl

@[simp] theorem State.setReg_streamBase (s : State) (k : Nat) (v : Word) :
    (s.setReg k v).streamBase = s.streamBase := rfl

@[simp] theorem State.setReg_streamLen (s : State) (k : Nat) (v : Word) :
    (s.setReg k v).streamLen = s.streamLen := rfl

@[simp] theorem State.setReg_faultRec (s : State) (k : Nat) (v : Word) :
    (s.setReg k v).faultRec = s.faultRec := rfl

@[simp] theorem State.setReg_trace (s : State) (k : Nat) (v : Word) :
    (s.setReg k v).trace = s.trace := rfl

@[simp] theorem State.setReg_mem (s : State) (k : Nat) (v : Word) :
    (s.setReg k v).mem = s.mem := rfl

/-! ### `State.setRegs` -/

@[simp] theorem State.setRegs_params (s : State) (k : Nat) (ws : List Word) :
    (s.setRegs k ws).params = s.params := rfl

@[simp] theorem State.setRegs_rf (s : State) (k : Nat) (ws : List Word) :
    (s.setRegs k ws).rf = s.rf.write k ws := rfl

@[simp] theorem State.setRegs_sinkRegistered (s : State) (k : Nat) (ws : List Word) :
    (s.setRegs k ws).sinkRegistered = s.sinkRegistered := rfl

@[simp] theorem State.setRegs_halted (s : State) (k : Nat) (ws : List Word) :
    (s.setRegs k ws).halted = s.halted := rfl

@[simp] theorem State.setRegs_phase (s : State) (k : Nat) (ws : List Word) :
    (s.setRegs k ws).phase = s.phase := rfl

@[simp] theorem State.setRegs_cursor (s : State) (k : Nat) (ws : List Word) :
    (s.setRegs k ws).cursor = s.cursor := rfl

@[simp] theorem State.setRegs_streamBase (s : State) (k : Nat) (ws : List Word) :
    (s.setRegs k ws).streamBase = s.streamBase := rfl

@[simp] theorem State.setRegs_streamLen (s : State) (k : Nat) (ws : List Word) :
    (s.setRegs k ws).streamLen = s.streamLen := rfl

@[simp] theorem State.setRegs_faultRec (s : State) (k : Nat) (ws : List Word) :
    (s.setRegs k ws).faultRec = s.faultRec := rfl

@[simp] theorem State.setRegs_trace (s : State) (k : Nat) (ws : List Word) :
    (s.setRegs k ws).trace = s.trace := rfl

@[simp] theorem State.setRegs_mem (s : State) (k : Nat) (ws : List Word) :
    (s.setRegs k ws).mem = s.mem := rfl

/-! ### `State.raise` -/

@[simp] theorem State.raise_params (s : State) (c : FaultCause) (hdr : Word) (v : DWord) (n : BitVec 14) :
    (s.raise c hdr v n).params = s.params := rfl

@[simp] theorem State.raise_rf (s : State) (c : FaultCause) (hdr : Word) (v : DWord) (n : BitVec 14) :
    (s.raise c hdr v n).rf = s.rf := rfl

@[simp] theorem State.raise_sinkRegistered (s : State) (c : FaultCause) (hdr : Word) (v : DWord) (n : BitVec 14) :
    (s.raise c hdr v n).sinkRegistered = s.sinkRegistered := rfl

@[simp] theorem State.raise_halted (s : State) (c : FaultCause) (hdr : Word) (v : DWord) (n : BitVec 14) :
    (s.raise c hdr v n).halted = true := rfl

@[simp] theorem State.raise_phase (s : State) (c : FaultCause) (hdr : Word) (v : DWord) (n : BitVec 14) :
    (s.raise c hdr v n).phase = .faulted := rfl

@[simp] theorem State.raise_cursor (s : State) (c : FaultCause) (hdr : Word) (v : DWord) (n : BitVec 14) :
    (s.raise c hdr v n).cursor = s.cursor := rfl

@[simp] theorem State.raise_streamBase (s : State) (c : FaultCause) (hdr : Word) (v : DWord) (n : BitVec 14) :
    (s.raise c hdr v n).streamBase = s.streamBase := rfl

@[simp] theorem State.raise_streamLen (s : State) (c : FaultCause) (hdr : Word) (v : DWord) (n : BitVec 14) :
    (s.raise c hdr v n).streamLen = s.streamLen := rfl

@[simp] theorem State.raise_faultRec (s : State) (c : FaultCause) (hdr : Word) (v : DWord) (n : BitVec 14) :
    (s.raise c hdr v n).faultRec = some (s.faultRecord c hdr v n) := rfl

@[simp] theorem State.raise_trace (s : State) (c : FaultCause) (hdr : Word) (v : DWord) (n : BitVec 14) :
    (s.raise c hdr v n).trace = s.trace ++ [.fault (s.faultRecord c hdr v n)] := rfl

@[simp] theorem State.raise_mem (s : State) (c : FaultCause) (hdr : Word) (v : DWord) (n : BitVec 14) :
    (s.raise c hdr v n).mem = s.mem := rfl

/-! ### `State.advance` -/

@[simp] theorem State.advance_params (s : State) (n : Nat) :
    (s.advance n).params = s.params := rfl

@[simp] theorem State.advance_rf (s : State) (n : Nat) :
    (s.advance n).rf = s.rf := rfl

@[simp] theorem State.advance_sinkRegistered (s : State) (n : Nat) :
    (s.advance n).sinkRegistered = s.sinkRegistered := rfl

@[simp] theorem State.advance_halted (s : State) (n : Nat) :
    (s.advance n).halted = s.halted := rfl

@[simp] theorem State.advance_phase (s : State) (n : Nat) :
    (s.advance n).phase = if s.cursor + BitVec.ofNat 32 n = s.streamLen then .done else s.phase := rfl

@[simp] theorem State.advance_cursor (s : State) (n : Nat) :
    (s.advance n).cursor = s.cursor + BitVec.ofNat 32 n := rfl

@[simp] theorem State.advance_streamBase (s : State) (n : Nat) :
    (s.advance n).streamBase = s.streamBase := rfl

@[simp] theorem State.advance_streamLen (s : State) (n : Nat) :
    (s.advance n).streamLen = s.streamLen := rfl

@[simp] theorem State.advance_faultRec (s : State) (n : Nat) :
    (s.advance n).faultRec = s.faultRec := rfl

@[simp] theorem State.advance_trace (s : State) (n : Nat) :
    (s.advance n).trace = if s.cursor + BitVec.ofNat 32 n = s.streamLen then s.trace ++ [.streamDone s.streamLen] else s.trace := rfl

@[simp] theorem State.advance_mem (s : State) (n : Nat) :
    (s.advance n).mem = s.mem := rfl

/-! ### `State.latchStream` -/

@[simp] theorem State.latchStream_params (s : State) (b : DWord) (l : BitVec 32) :
    (s.latchStream b l).params = s.params := rfl

@[simp] theorem State.latchStream_rf (s : State) (b : DWord) (l : BitVec 32) :
    (s.latchStream b l).rf = s.rf := rfl

@[simp] theorem State.latchStream_sinkRegistered (s : State) (b : DWord) (l : BitVec 32) :
    (s.latchStream b l).sinkRegistered = s.sinkRegistered := rfl

@[simp] theorem State.latchStream_halted (s : State) (b : DWord) (l : BitVec 32) :
    (s.latchStream b l).halted = s.halted := rfl

@[simp] theorem State.latchStream_phase (s : State) (b : DWord) (l : BitVec 32) :
    (s.latchStream b l).phase = s.phase := rfl

@[simp] theorem State.latchStream_cursor (s : State) (b : DWord) (l : BitVec 32) :
    (s.latchStream b l).cursor = 0#32 := rfl

@[simp] theorem State.latchStream_streamBase (s : State) (b : DWord) (l : BitVec 32) :
    (s.latchStream b l).streamBase = b := rfl

@[simp] theorem State.latchStream_streamLen (s : State) (b : DWord) (l : BitVec 32) :
    (s.latchStream b l).streamLen = l := rfl

@[simp] theorem State.latchStream_faultRec (s : State) (b : DWord) (l : BitVec 32) :
    (s.latchStream b l).faultRec = s.faultRec := rfl

@[simp] theorem State.latchStream_trace (s : State) (b : DWord) (l : BitVec 32) :
    (s.latchStream b l).trace = s.trace := rfl

@[simp] theorem State.latchStream_mem (s : State) (b : DWord) (l : BitVec 32) :
    (s.latchStream b l).mem = s.mem := rfl

/-! ### `State.resetDecoder` -/

@[simp] theorem State.resetDecoder_params (s : State) :
    (s.resetDecoder).params = s.params := rfl

@[simp] theorem State.resetDecoder_rf (s : State) :
    (s.resetDecoder).rf = [] := rfl

@[simp] theorem State.resetDecoder_sinkRegistered (s : State) :
    (s.resetDecoder).sinkRegistered = false := rfl

@[simp] theorem State.resetDecoder_halted (s : State) :
    (s.resetDecoder).halted = false := rfl

@[simp] theorem State.resetDecoder_phase (s : State) :
    (s.resetDecoder).phase = .idle := rfl

@[simp] theorem State.resetDecoder_cursor (s : State) :
    (s.resetDecoder).cursor = 0#32 := rfl

@[simp] theorem State.resetDecoder_streamBase (s : State) :
    (s.resetDecoder).streamBase = 0#64 := rfl

@[simp] theorem State.resetDecoder_streamLen (s : State) :
    (s.resetDecoder).streamLen = 0#32 := rfl

@[simp] theorem State.resetDecoder_faultRec (s : State) :
    (s.resetDecoder).faultRec = none := rfl

@[simp] theorem State.resetDecoder_trace (s : State) :
    (s.resetDecoder).trace = [] := rfl

@[simp] theorem State.resetDecoder_mem (s : State) :
    (s.resetDecoder).mem = s.mem := rfl

/-! ### `State.placePacket`: what it leaves -/

@[simp] theorem State.placePacket_rf (s : State) (n w : Nat) : (s.placePacket n w).rf = s.rf := rfl

@[simp] theorem State.placePacket_params (s : State) (n w : Nat) : (s.placePacket n w).params = s.params := rfl

@[simp] theorem State.placePacket_phase (s : State) (n w : Nat) : (s.placePacket n w).phase = .scanning := rfl

@[simp] theorem State.placePacket_trace (s : State) (n w : Nat) : (s.placePacket n w).trace = s.trace := rfl

/-! ### The fault record -/

@[simp] theorem State.faultRecord_emit (s : State) (e : Event) (c : FaultCause) (hdr : Word) (v : DWord)
    (n : BitVec 14) : (s.emit e).faultRecord c hdr v n = s.faultRecord c hdr v n := rfl

@[simp] theorem State.faultRecord_emitPacket (s : State) (i : Instr) (c : FaultCause) (hdr : Word) (v : DWord)
    (n : BitVec 14) : (s.emitPacket i).faultRecord c hdr v n = s.faultRecord c hdr v n := rfl

/-! ### Reading the packet at the cursor looks only at memory and the latches -/

@[simp] theorem State.packetAddr_emit (s : State) (e : Event) (k : Nat) :
    (s.emit e).packetAddr k = s.packetAddr k := rfl

@[simp] theorem State.packetAddr_emitPacket (s : State) (i : Instr) (k : Nat) :
    (s.emitPacket i).packetAddr k = s.packetAddr k := rfl

@[simp] theorem State.packetWord_emit (s : State) (e : Event) (k : Nat) :
    (s.emit e).packetWord k = s.packetWord k := rfl

@[simp] theorem State.packetWord_emitPacket (s : State) (i : Instr) (k : Nat) :
    (s.emitPacket i).packetWord k = s.packetWord k := rfl

@[simp] theorem State.admits_emit (s : State) (e : Event) (a n : Nat) : (s.emit e).admits a n = s.admits a n := rfl

@[simp] theorem State.admits_emitPacket (s : State) (i : Instr) (a n : Nat) :
    (s.emitPacket i).admits a n = s.admits a n := rfl

@[simp] theorem State.missesStream_emitPacket (s : State) (i : Instr) (a n : Nat) :
    (s.emitPacket i).missesStream a n = s.missesStream a n := rfl

end Sys2Proof.Machine
end

