-- ==== Sys2Proof/Laws/Packet.lean ====
section
/-! SUPPORT. What the shared operations of a packet can do: the payload reads, `require`, and the packet's frame. -/

namespace Sys2Proof.Machine

/-! ## `require` and the payload -/

theorem require_ok (c : Bool) (s : State) (f : FaultCause) (v : DWord) (h : c = true) : require c s f v = .ok () := by
  simp [require, h]

theorem require_raised (c : Bool) (s : State) (f : FaultCause) (v : DWord) (h : c = false) :
    require c s f v = .error (.raised s f v) := by
  simp [require, h]

theorem payload_ok (s : State) (k : Nat) (h : s.admits (s.packetAddr k) 4 = true) :
    s.payload k = .ok (s.packetWord k) := by
  simp [State.payload, h]

theorem payload_stuck (s : State) (k : Nat) (h : s.admits (s.packetAddr k) 4 = false) :
    s.payload k = .error (.stuck (.notAdmitted (s.packetAddr k) 4)) := by
  simp [State.payload, h]

/-- A payload read answers the word in memory, or is stuck; it never raises. -/
theorem payload_cases (s : State) (k : Nat) :
    s.payload k = .ok (s.packetWord k) ∨ ∃ f, s.payload k = .error (.stuck f) := by
  by_cases h : s.admits (s.packetAddr k) 4 = true
  · exact .inl (payload_ok s k h)
  · exact .inr ⟨_, payload_stuck s k (by simpa using h)⟩

theorem payloadBlock_ok (s : State) (first n : Nat)
    (h : ∀ k, k < n → s.admits (s.packetAddr (first + k)) 4 = true) :
    s.payloadBlock first n = .ok ((List.range n).map fun k => s.packetWord (first + k)) := by
  unfold State.payloadBlock
  rw [List.find?_eq_none.mpr]
  intro k hk
  simp [h k (List.mem_range.mp hk)]

/-- A block read answers all its words, or is stuck; it never raises. -/
theorem payloadBlock_cases (s : State) (first n : Nat) :
    s.payloadBlock first n = .ok ((List.range n).map fun k => s.packetWord (first + k)) ∨
      ∃ f, s.payloadBlock first n = .error (.stuck f) := by
  unfold State.payloadBlock
  split
  · exact .inr ⟨_, rfl⟩
  · exact .inl rfl

/-- A store answers the state with the bytes written, or is stuck. -/
theorem storeBytes_cases (s : State) (a : Nat) (bs : List Byte) :
    (s.admits a bs.length = true ∧ s.storeBytes a bs = .ok { s with mem := s.mem.write a bs }) ∨
      ∃ f, s.storeBytes a bs = .error (.stuck f) := by
  unfold State.storeBytes
  split
  · next h => exact .inl ⟨h, rfl⟩
  · exact .inr ⟨_, rfl⟩

/-! ## Sizes and the advance -/

theorem packetSize_le (c : BitVec 14) : packetSize c ≤ 65536 := by
  have := c.isLt
  unfold packetSize
  omega

theorem packetSize_pos (c : BitVec 14) : 4 ≤ packetSize c := by
  unfold packetSize
  omega

theorem overruns_eq_false (s : State) (c : BitVec 14) :
    s.overruns c = false ↔ s.cursor.toNat + packetSize c ≤ s.streamLen.toNat := by
  simp [State.overruns]

theorem overruns_eq_true (s : State) (c : BitVec 14) :
    s.overruns c = true ↔ s.streamLen.toNat < s.cursor.toNat + packetSize c := by
  simp [State.overruns]

/-- Inside the stream the advance is exact (R26, R108). -/
theorem advance_cursor_toNat (s : State) (n : Nat) (h : s.cursor.toNat + n ≤ s.streamLen.toNat) :
    (s.cursor + BitVec.ofNat 32 n).toNat = s.cursor.toNat + n := by
  have := s.streamLen.isLt
  rw [BitVec.toNat_add, BitVec.toNat_ofNat]
  omega

/-- The end of the stream is reached exactly when the sizes add up (R111). -/
theorem advance_end_iff (s : State) (n : Nat) (h : s.cursor.toNat + n ≤ s.streamLen.toNat) :
    s.cursor + BitVec.ofNat 32 n = s.streamLen ↔ s.cursor.toNat + n = s.streamLen.toNat := by
  rw [← advance_cursor_toNat s n h]
  exact ⟨fun e => by rw [e], fun e => BitVec.eq_of_toNat_eq e⟩

/-! ## The frame of a packet -/

theorem runPacket_overrun (i : Instr) (handler : State → Except Stop State) (s : State)
    (h : s.overruns i.count = true) :
    runPacket i handler s =
      .next (s.raise .streamOverrun s.headerWord (BitVec.ofNat 64 (packetSize i.count)) i.count) := by
  simp [runPacket, h]

theorem runPacket_ok (i : Instr) (handler : State → Except Stop State) (s t : State)
    (h : s.overruns i.count = false) (ht : handler (s.emitPacket i) = .ok t) :
    runPacket i handler s = .next (t.advance (packetSize i.count)) := by
  simp [runPacket, h, ht, finishPacket]

theorem runPacket_raised (i : Instr) (handler : State → Except Stop State) (s t : State) (f : FaultCause) (v : DWord)
    (h : s.overruns i.count = false) (ht : handler (s.emitPacket i) = .error (.raised t f v)) :
    runPacket i handler s = .next (t.raise f s.headerWord v i.count) := by
  simp [runPacket, h, ht, finishPacket]

theorem runPacket_stuck (i : Instr) (handler : State → Except Stop State) (s : State) (f : Fault)
    (h : s.overruns i.count = false) (ht : handler (s.emitPacket i) = .error (.stuck f)) :
    runPacket i handler s = .fault f := by
  simp [runPacket, h, ht, finishPacket]

/-- All that a packet can do when it answers a next state: overrun, complete, or raise. -/
theorem runPacket_cases (i : Instr) (handler : State → Except Stop State) (s t : State)
    (h : runPacket i handler s = .next t) :
    (s.overruns i.count = true ∧
        t = s.raise .streamOverrun s.headerWord (BitVec.ofNat 64 (packetSize i.count)) i.count) ∨
      (s.overruns i.count = false ∧ ∃ u, handler (s.emitPacket i) = .ok u ∧ t = u.advance (packetSize i.count)) ∨
      (s.overruns i.count = false ∧ ∃ u f v, handler (s.emitPacket i) = .error (.raised u f v) ∧
        t = u.raise f s.headerWord v i.count) := by
  cases ho : s.overruns i.count with
  | true =>
    rw [runPacket_overrun i handler s ho] at h
    exact .inl ⟨rfl, by injection h with h; exact h.symm⟩
  | false =>
    cases hh : handler (s.emitPacket i) with
    | ok u =>
      rw [runPacket_ok i handler s u ho hh] at h
      exact .inr (.inl ⟨rfl, u, rfl, by injection h with h; exact h.symm⟩)
    | error e =>
      cases e with
      | raised u f v =>
        rw [runPacket_raised i handler s u f v ho hh] at h
        exact .inr (.inr ⟨rfl, u, f, v, rfl, by injection h with h; exact h.symm⟩)
      | stuck f =>
        rw [runPacket_stuck i handler s f ho hh] at h
        cases h

/-- A packet is never refused. -/
theorem runPacket_not_refused (i : Instr) (handler : State → Except Stop State) (s : State) (r : Refusal) :
    runPacket i handler s ≠ .refused r := by
  unfold runPacket finishPacket
  split
  · simp
  · split <;> simp

end Sys2Proof.Machine
end

