-- ==== Sys2Proof/Laws/Handlers.lean ====
section
/-! SUPPORT. One lemma per handler that says once everything it can do, and one that says what all of them leave
alone. -/

namespace Sys2Proof.Machine

/-! ## SETREG -/

/-- The data words of a SETREG packet. -/
def setRegData (s : State) (count : BitVec 14) : List Word :=
  (List.range (count.toNat - 1)).map fun k => s.packetWord (2 + k)

@[simp] theorem setRegData_length (s : State) (count : BitVec 14) :
    (setRegData s count).length = count.toNat - 1 := by
  simp [setRegData]

theorem setRegHandler_malformed (r : Region) (count : BitVec 14) (s : State) (h : hasWords count 1 = false) :
    setRegHandler r count s = .error (.raised s .malformedPacket (count.setWidth 64)) := by
  simp only [setRegHandler, require_raised _ _ _ _ h]
  rfl

theorem setRegHandler_outside (r : Region) (count : BitVec 14) (s : State) (h : hasWords count 1 = true)
    (h1 : s.admits (s.packetAddr 1) 4 = true)
    (hr : insideRegion s.params r (regOffset (s.packetWord 1)).toNat (count.toNat - 1) = false) :
    setRegHandler r count s =
      .error (.raised s .regionBoundsViolation ((regOffset (s.packetWord 1)).setWidth 64)) := by
  simp only [setRegHandler, require_ok _ _ _ _ h, payload_ok s 1 h1, bind, Except.bind,
    require_raised _ _ _ _ hr]

theorem setRegHandler_ok (r : Region) (count : BitVec 14) (s : State) (h : hasWords count 1 = true)
    (h1 : s.admits (s.packetAddr 1) 4 = true)
    (hr : insideRegion s.params r (regOffset (s.packetWord 1)).toNat (count.toNat - 1) = true)
    (hd : ∀ k, k < count.toNat - 1 → s.admits (s.packetAddr (2 + k)) 4 = true) :
    setRegHandler r count s =
      .ok (s.setRegs (regionBase s.params r + (regOffset (s.packetWord 1)).toNat) (setRegData s count)) := by
  simp only [setRegHandler, require_ok _ _ _ _ h, payload_ok s 1 h1, bind, Except.bind,
    require_ok _ _ _ _ hr, payloadBlock_ok s 2 _ hd, setRegData]

/-- All a SETREG handler can do: malformed, out of its region, stuck, or the copy inside its region. -/
theorem setRegHandler_cases (r : Region) (count : BitVec 14) (s : State) :
    (∃ f v, setRegHandler r count s = .error (.raised s f v)) ∨
      (∃ f, setRegHandler r count s = .error (.stuck f)) ∨
      ((regOffset (s.packetWord 1)).toNat + (count.toNat - 1) ≤ regionCap s.params r ∧
        setRegHandler r count s =
          .ok (s.setRegs (regionBase s.params r + (regOffset (s.packetWord 1)).toNat) (setRegData s count))) := by
  cases h : hasWords count 1 with
  | false => exact .inl ⟨_, _, setRegHandler_malformed r count s h⟩
  | true =>
    rcases payload_cases s 1 with h1 | ⟨f, h1⟩
    · cases hr : insideRegion s.params r (regOffset (s.packetWord 1)).toNat (count.toNat - 1) with
      | false =>
        refine .inl ⟨.regionBoundsViolation, ((regOffset (s.packetWord 1)).setWidth 64), ?_⟩
        simp only [setRegHandler, require_ok _ _ _ _ h, h1, bind, Except.bind, require_raised _ _ _ _ hr]
      | true =>
        rcases payloadBlock_cases s 2 (count.toNat - 1) with hb | ⟨f, hb⟩
        · refine .inr (.inr ⟨by simpa [insideRegion] using hr, ?_⟩)
          simp only [setRegHandler, require_ok _ _ _ _ h, h1, bind, Except.bind, require_ok _ _ _ _ hr, hb, setRegData]
        · refine .inr (.inl ⟨f, ?_⟩)
          simp only [setRegHandler, require_ok _ _ _ _ h, h1, bind, Except.bind, require_ok _ _ _ _ hr, hb]
    · refine .inr (.inl ⟨f, ?_⟩)
      simp only [setRegHandler, require_ok _ _ _ _ h, h1, bind, Except.bind]

/-! ## INDEX_TYPE and the draws -/

theorem indexTypeHandler_malformed (count : BitVec 14) (s : State) (h : hasWords count 1 = false) :
    indexTypeHandler count s = .error (.raised s .malformedPacket (count.setWidth 64)) := by
  simp only [indexTypeHandler, require_raised _ _ _ _ h]
  rfl

theorem indexTypeHandler_ok (count : BitVec 14) (s : State) (h : hasWords count 1 = true)
    (h1 : s.admits (s.packetAddr 1) 4 = true) :
    indexTypeHandler count s = .ok (s.setReg s.params.ixIndexType (s.packetWord 1)) := by
  simp only [indexTypeHandler, require_ok _ _ _ _ h, payload_ok s 1 h1, bind, Except.bind]

theorem indexTypeHandler_cases (count : BitVec 14) (s : State) :
    (∃ f v, indexTypeHandler count s = .error (.raised s f v)) ∨
      (∃ f, indexTypeHandler count s = .error (.stuck f)) ∨
      indexTypeHandler count s = .ok (s.setReg s.params.ixIndexType (s.packetWord 1)) := by
  cases h : hasWords count 1 with
  | false => exact .inl ⟨_, _, indexTypeHandler_malformed count s h⟩
  | true =>
    rcases payload_cases s 1 with h1 | ⟨f, h1⟩
    · refine .inr (.inr ?_)
      simp only [indexTypeHandler, require_ok _ _ _ _ h, h1, bind, Except.bind]
    · refine .inr (.inl ⟨f, ?_⟩)
      simp only [indexTypeHandler, require_ok _ _ _ _ h, h1, bind, Except.bind]

/-- The state DRAW_INDEX_2 leaves before the advance (R152). -/
def drawIndex2Result (s : State) : State :=
  (s.stageIndexed (s.packetWord 1) (s.packetWord 2) (s.packetWord 3) (s.packetWord 4) (s.packetWord 5)).notifyDraw
    .indexed

theorem drawIndex2Handler_malformed (count : BitVec 14) (s : State) (h : hasWords count 5 = false) :
    drawIndex2Handler count s = .error (.raised s .malformedPacket (count.setWidth 64)) := by
  simp only [drawIndex2Handler, require_raised _ _ _ _ h]
  rfl

theorem drawIndex2Handler_ok (count : BitVec 14) (s : State) (h : hasWords count 5 = true)
    (ha : ∀ k, 1 ≤ k → k ≤ 5 → s.admits (s.packetAddr k) 4 = true) :
    drawIndex2Handler count s = .ok (drawIndex2Result s) := by
  simp only [drawIndex2Handler, require_ok _ _ _ _ h, payload_ok s 1 (ha 1 (by decide) (by decide)),
    payload_ok s 2 (ha 2 (by decide) (by decide)), payload_ok s 3 (ha 3 (by decide) (by decide)),
    payload_ok s 4 (ha 4 (by decide) (by decide)), payload_ok s 5 (ha 5 (by decide) (by decide)),
    bind, Except.bind, drawIndex2Result]

theorem drawIndex2Handler_cases (count : BitVec 14) (s : State) :
    (∃ f v, drawIndex2Handler count s = .error (.raised s f v)) ∨
      (∃ f, drawIndex2Handler count s = .error (.stuck f)) ∨
      drawIndex2Handler count s = .ok (drawIndex2Result s) := by
  cases h : hasWords count 5 with
  | false => exact .inl ⟨_, _, drawIndex2Handler_malformed count s h⟩
  | true =>
    rcases payload_cases s 1 with h1 | ⟨f, h1⟩ <;> rcases payload_cases s 2 with h2 | ⟨g, h2⟩ <;>
      rcases payload_cases s 3 with h3 | ⟨g3, h3⟩ <;> rcases payload_cases s 4 with h4 | ⟨g4, h4⟩ <;>
      rcases payload_cases s 5 with h5 | ⟨g5, h5⟩ <;>
      simp [drawIndex2Handler, require_ok _ _ _ _ h, h1, h2, h3, h4, h5, bind, Except.bind, drawIndex2Result]

/-- The state DRAW_INDEX_AUTO leaves before the advance (R156). -/
def drawIndexAutoResult (s : State) : State := (s.stageAuto (s.packetWord 1) (s.packetWord 2)).notifyDraw .auto

theorem drawIndexAutoHandler_malformed (count : BitVec 14) (s : State) (h : hasWords count 2 = false) :
    drawIndexAutoHandler count s = .error (.raised s .malformedPacket (count.setWidth 64)) := by
  simp only [drawIndexAutoHandler, require_raised _ _ _ _ h]
  rfl

theorem drawIndexAutoHandler_ok (count : BitVec 14) (s : State) (h : hasWords count 2 = true)
    (ha : ∀ k, 1 ≤ k → k ≤ 2 → s.admits (s.packetAddr k) 4 = true) :
    drawIndexAutoHandler count s = .ok (drawIndexAutoResult s) := by
  simp only [drawIndexAutoHandler, require_ok _ _ _ _ h, payload_ok s 1 (ha 1 (by decide) (by decide)),
    payload_ok s 2 (ha 2 (by decide) (by decide)), bind, Except.bind, drawIndexAutoResult]

theorem drawIndexAutoHandler_cases (count : BitVec 14) (s : State) :
    (∃ f v, drawIndexAutoHandler count s = .error (.raised s f v)) ∨
      (∃ f, drawIndexAutoHandler count s = .error (.stuck f)) ∨
      drawIndexAutoHandler count s = .ok (drawIndexAutoResult s) := by
  cases h : hasWords count 2 with
  | false => exact .inl ⟨_, _, drawIndexAutoHandler_malformed count s h⟩
  | true =>
    rcases payload_cases s 1 with h1 | ⟨f, h1⟩ <;> rcases payload_cases s 2 with h2 | ⟨g, h2⟩ <;>
      simp [drawIndexAutoHandler, require_ok _ _ _ _ h, h1, h2, bind, Except.bind, drawIndexAutoResult]

@[simp] theorem State.snapshot_emit (s : State) (e : Event) : (s.emit e).snapshot = s.snapshot := rfl

/-- What a draw leaves: the staged registers, and its notification as the last event (R155). -/
theorem drawIndex2Result_eq (s : State) :
    drawIndex2Result s =
      { s with rf := (drawIndex2Result s).rf,
               trace := s.trace ++ [.drawNotify .indexed (drawIndex2Result s).snapshot] } := by
  unfold drawIndex2Result State.notifyDraw
  rw [State.snapshot_emit]
  generalize hn : (s.stageIndexed _ _ _ _ _).snapshot = n
  rfl

theorem drawIndexAutoResult_eq (s : State) :
    drawIndexAutoResult s =
      { s with rf := (drawIndexAutoResult s).rf,
               trace := s.trace ++ [.drawNotify .auto (drawIndexAutoResult s).snapshot] } := by
  unfold drawIndexAutoResult State.notifyDraw
  rw [State.snapshot_emit]
  generalize hn : (s.stageAuto _ _).snapshot = n
  rfl

theorem drawIndex2Result_rf (s : State) :
    (drawIndex2Result s).rf =
      ((((s.rf.write s.params.ixMaxSize [s.packetWord 1]).write s.params.ixBaseLo [s.packetWord 2]).write
        s.params.ixBaseHi [s.packetWord 3]).write s.params.ixNumIndices [s.packetWord 4]).write
        s.params.ixDrawInitiator [s.packetWord 5] := rfl

theorem drawIndexAutoResult_rf (s : State) :
    (drawIndexAutoResult s).rf =
      (s.rf.write s.params.ixNumIndices [s.packetWord 1]).write s.params.ixDrawInitiator [s.packetWord 2] := rfl

/-! ## EVENT_WRITE_EOP -/

/-- The write-back address of the packet at the cursor (R172). -/
def State.eopAddr (s : State) : DWord := writeBackAddr s.params.addrHiBits (s.packetWord 2) (s.packetWord 3)

/-- The value and width of the write-back of the packet at the cursor (R176), for a valid `DATA_SEL`. -/
def State.eopStore (s : State) : StoreData :=
  if dataSel (s.packetWord 3) = 1#3 then .data32 (s.packetWord 4)
  else .data64 (s.packetWord 5 ++ s.packetWord 4)

/-- The state right after the write-back and its event (R176). -/
def State.afterWriteBack (s : State) : State :=
  { s with mem := s.mem.write s.eopAddr.toNat s.eopStore.bytes }.emit (.writeBack s.eopAddr s.eopStore)

@[simp] theorem leBytes_length {w : Nat} (n : Nat) (v : BitVec w) : (leBytes n v).length = n := by
  simp [leBytes]

@[simp] theorem StoreData.bytes_length (d : StoreData) : (StoreData.bytes d).length = StoreData.width d := by
  cases d <;> simp [StoreData.bytes, StoreData.width]

theorem State.eopStore_width (s : State) : StoreData.width s.eopStore = eopWidth (dataSel (s.packetWord 3)) := by
  unfold State.eopStore eopWidth
  split <;> rfl

theorem eopData_cases (s : State) :
    s.eopData (dataSel (s.packetWord 3)) = .ok s.eopStore ∨
      ∃ f, s.eopData (dataSel (s.packetWord 3)) = .error (.stuck f) := by
  rcases payload_cases s 4 with h4 | ⟨f, h4⟩ <;> rcases payload_cases s 5 with h5 | ⟨g, h5⟩ <;>
    by_cases hd : dataSel (s.packetWord 3) = 1#3 <;>
    simp [State.eopData, State.eopStore, h4, h5, hd, bind, Except.bind]

theorem eopData_ok (s : State) (h4 : s.admits (s.packetAddr 4) 4 = true)
    (h5 : dataSel (s.packetWord 3) ≠ 1#3 → s.admits (s.packetAddr 5) 4 = true) :
    s.eopData (dataSel (s.packetWord 3)) = .ok s.eopStore := by
  by_cases hd : dataSel (s.packetWord 3) = 1#3
  · simp [State.eopData, State.eopStore, payload_ok s 4 h4, hd, bind, Except.bind]
  · simp [State.eopData, State.eopStore, payload_ok s 4 h4, payload_ok s 5 (h5 hd), hd, bind, Except.bind]

theorem writeBack_cases (s : State) :
    (s.admits s.eopAddr.toNat (StoreData.width s.eopStore) = true ∧
        s.writeBack s.eopAddr s.eopStore = .ok s.afterWriteBack) ∨
      ∃ f, s.writeBack s.eopAddr s.eopStore = .error (.stuck f) := by
  rcases storeBytes_cases s s.eopAddr.toNat (StoreData.bytes s.eopStore) with ⟨ha, h⟩ | ⟨f, h⟩
  · refine .inl ⟨by simpa using ha, ?_⟩
    simp [State.writeBack, h, bind, Except.bind, State.afterWriteBack]
  · refine .inr ⟨f, ?_⟩
    simp [State.writeBack, h, bind, Except.bind]

theorem writeBack_ok (s : State) (h : s.admits s.eopAddr.toNat (StoreData.width s.eopStore) = true) :
    s.writeBack s.eopAddr s.eopStore = .ok s.afterWriteBack := by
  simp [State.writeBack, State.storeBytes, h, bind, Except.bind, State.afterWriteBack]

theorem confirmInterrupt_none (s : State) : s.confirmInterrupt 0#2 = .ok s := by
  simp [State.confirmInterrupt, require, validIntSel, bind, Except.bind]

theorem confirmInterrupt_irq (s : State) (h : s.sinkRegistered = true) :
    s.confirmInterrupt 2#2 = .ok (s.emit .irq) := by
  simp [State.confirmInterrupt, require, validIntSel, bind, Except.bind, h]

theorem confirmInterrupt_missing (s : State) (h : s.sinkRegistered = false) :
    s.confirmInterrupt 2#2 = .error (.raised s .missingInterruptSink 0#64) := by
  simp [State.confirmInterrupt, require, validIntSel, bind, Except.bind, h]

theorem confirmInterrupt_invalid (s : State) (isel : BitVec 2) (h : validIntSel isel = false) :
    s.confirmInterrupt isel = .error (.raised s .invalidInterruptSelect (isel.setWidth 64)) := by
  simp [State.confirmInterrupt, require_raised _ _ _ _ h, bind, Except.bind]

/-- The interrupt step raises, does nothing, or emits one `Irq`. -/
theorem confirmInterrupt_cases (s : State) (isel : BitVec 2) :
    (∃ f v, s.confirmInterrupt isel = .error (.raised s f v)) ∨ s.confirmInterrupt isel = .ok s ∨
      s.confirmInterrupt isel = .ok (s.emit .irq) := by
  cases hv : validIntSel isel with
  | false => exact .inl ⟨_, _, confirmInterrupt_invalid s isel hv⟩
  | true =>
    have h : isel = 0#2 ∨ isel = 2#2 := by simpa [validIntSel] using hv
    rcases h with rfl | rfl
    · exact .inr (.inl (confirmInterrupt_none s))
    · cases hs : s.sinkRegistered with
      | false => exact .inl ⟨_, _, confirmInterrupt_missing s hs⟩
      | true => exact .inr (.inr (confirmInterrupt_irq s hs))

theorem eventWriteEopHandler_malformed (count : BitVec 14) (s : State) (h : hasWords count 5 = false) :
    eventWriteEopHandler count s = .error (.raised s .malformedPacket (count.setWidth 64)) := by
  simp only [eventWriteEopHandler, require_raised _ _ _ _ h]
  rfl

theorem eventWriteEopHandler_badData (count : BitVec 14) (s : State) (h : hasWords count 5 = true)
    (h2 : s.admits (s.packetAddr 2) 4 = true) (h3 : s.admits (s.packetAddr 3) 4 = true)
    (hd : validDataSel (dataSel (s.packetWord 3)) = false) :
    eventWriteEopHandler count s =
      .error (.raised s .invalidDataSelect ((dataSel (s.packetWord 3)).setWidth 64)) := by
  simp only [eventWriteEopHandler, require_ok _ _ _ _ h, payload_ok s 2 h2, payload_ok s 3 h3,
    require_raised _ _ _ _ hd, bind, Except.bind]

theorem eventWriteEopHandler_misaligned (count : BitVec 14) (s : State) (h : hasWords count 5 = true)
    (h2 : s.admits (s.packetAddr 2) 4 = true) (h3 : s.admits (s.packetAddr 3) 4 = true)
    (hd : validDataSel (dataSel (s.packetWord 3)) = true)
    (ha : isAligned s.eopAddr (eopWidth (dataSel (s.packetWord 3))) = false) :
    eventWriteEopHandler count s = .error (.raised s .misalignedWriteBack s.eopAddr) := by
  unfold State.eopAddr at ha ⊢
  simp only [eventWriteEopHandler, require_ok _ _ _ _ h, payload_ok s 2 h2, payload_ok s 3 h3,
    require_ok _ _ _ _ hd, require_raised _ _ _ _ ha, bind, Except.bind]

theorem eventWriteEopHandler_aliases (count : BitVec 14) (s : State) (h : hasWords count 5 = true)
    (h2 : s.admits (s.packetAddr 2) 4 = true) (h3 : s.admits (s.packetAddr 3) 4 = true)
    (hd : validDataSel (dataSel (s.packetWord 3)) = true)
    (ha : isAligned s.eopAddr (eopWidth (dataSel (s.packetWord 3))) = true)
    (hm : s.missesStream s.eopAddr.toNat (eopWidth (dataSel (s.packetWord 3))) = false) :
    eventWriteEopHandler count s = .error (.raised s .writeBackAliasesStream s.eopAddr) := by
  unfold State.eopAddr at ha hm ⊢
  simp only [eventWriteEopHandler, require_ok _ _ _ _ h, payload_ok s 2 h2, payload_ok s 3 h3,
    require_ok _ _ _ _ hd, require_ok _ _ _ _ ha, require_raised _ _ _ _ hm, bind, Except.bind]

/-- Past its checks the handler reads its data words, writes back and then confirms the interrupt (R176 to R179). -/
theorem eventWriteEopHandler_checked (count : BitVec 14) (s : State) (h : hasWords count 5 = true)
    (h2 : s.payload 2 = .ok (s.packetWord 2)) (h3 : s.payload 3 = .ok (s.packetWord 3))
    (hd : validDataSel (dataSel (s.packetWord 3)) = true)
    (ha : isAligned s.eopAddr (eopWidth (dataSel (s.packetWord 3))) = true)
    (hm : s.missesStream s.eopAddr.toNat (eopWidth (dataSel (s.packetWord 3))) = true) :
    eventWriteEopHandler count s =
      s.eopData (dataSel (s.packetWord 3)) >>= fun d =>
        s.writeBack s.eopAddr d >>= fun t => t.confirmInterrupt (intSel (s.packetWord 3)) := by
  unfold State.eopAddr at ha hm ⊢
  simp only [eventWriteEopHandler, require_ok _ _ _ _ h, h2, h3, require_ok _ _ _ _ hd, require_ok _ _ _ _ ha,
    require_ok _ _ _ _ hm, bind, Except.bind]

/-- Past its checks the handler is the write-back and then the interrupt step. -/
theorem eventWriteEopHandler_writes (count : BitVec 14) (s : State) (h : hasWords count 5 = true)
    (h2 : s.admits (s.packetAddr 2) 4 = true) (h3 : s.admits (s.packetAddr 3) 4 = true)
    (h4 : s.admits (s.packetAddr 4) 4 = true)
    (h5 : dataSel (s.packetWord 3) ≠ 1#3 → s.admits (s.packetAddr 5) 4 = true)
    (hd : validDataSel (dataSel (s.packetWord 3)) = true)
    (ha : isAligned s.eopAddr (eopWidth (dataSel (s.packetWord 3))) = true)
    (hm : s.missesStream s.eopAddr.toNat (eopWidth (dataSel (s.packetWord 3))) = true)
    (hw : s.admits s.eopAddr.toNat (eopWidth (dataSel (s.packetWord 3))) = true) :
    eventWriteEopHandler count s = s.afterWriteBack.confirmInterrupt (intSel (s.packetWord 3)) := by
  rw [eventWriteEopHandler_checked count s h (payload_ok s 2 h2) (payload_ok s 3 h3) hd ha hm, eopData_ok s h4 h5]
  simp only [bind, Except.bind, writeBack_ok s (by rw [State.eopStore_width]; exact hw)]

/-- All that EVENT_WRITE_EOP can do: raise before the write-back with no effect, be stuck, or write back (to admitted
memory, outside the stream) and then raise, end, or emit one `Irq`. -/
theorem eventWriteEopHandler_cases (count : BitVec 14) (s : State) :
    (∃ f v, eventWriteEopHandler count s = .error (.raised s f v)) ∨
      (∃ f, eventWriteEopHandler count s = .error (.stuck f)) ∨
      (s.admits s.eopAddr.toNat (StoreData.width s.eopStore) = true ∧
        s.missesStream s.eopAddr.toNat (StoreData.width s.eopStore) = true ∧
        ((∃ f v, eventWriteEopHandler count s = .error (.raised s.afterWriteBack f v)) ∨
          eventWriteEopHandler count s = .ok s.afterWriteBack ∨
          eventWriteEopHandler count s = .ok (s.afterWriteBack.emit .irq))) := by
  cases h : hasWords count 5 with
  | false => exact .inl ⟨_, _, eventWriteEopHandler_malformed count s h⟩
  | true =>
    rcases payload_cases s 3 with h3 | ⟨f, h3⟩
    rotate_left
    · exact .inr (.inl ⟨f, by simp only [eventWriteEopHandler, require_ok _ _ _ _ h, h3, bind, Except.bind]⟩)
    rcases payload_cases s 2 with h2 | ⟨f, h2⟩
    rotate_left
    · exact .inr (.inl ⟨f, by simp only [eventWriteEopHandler, require_ok _ _ _ _ h, h3, h2, bind, Except.bind]⟩)
    have hq := require_ok (hasWords count 5) s .malformedPacket (count.setWidth 64) h
    cases hd : validDataSel (dataSel (s.packetWord 3)) with
    | false =>
      exact .inl ⟨_, _, by
        simp only [eventWriteEopHandler, hq, h3, h2, require_raised _ _ _ _ hd, bind, Except.bind]; rfl⟩
    | true =>
    cases ha : isAligned s.eopAddr (eopWidth (dataSel (s.packetWord 3))) with
    | false =>
      rw [State.eopAddr] at ha
      exact .inl ⟨_, _, by
        simp only [eventWriteEopHandler, hq, h3, h2, require_ok _ _ _ _ hd, require_raised _ _ _ _ ha, bind,
          Except.bind]; rfl⟩
    | true =>
    cases hm : s.missesStream s.eopAddr.toNat (eopWidth (dataSel (s.packetWord 3))) with
    | false =>
      rw [State.eopAddr] at ha hm
      exact .inl ⟨_, _, by
        simp only [eventWriteEopHandler, hq, h3, h2, require_ok _ _ _ _ hd, require_ok _ _ _ _ ha,
          require_raised _ _ _ _ hm, bind, Except.bind]; rfl⟩
    | true =>
    have key := eventWriteEopHandler_checked count s h h2 h3 hd ha hm
    rcases eopData_cases s with he | ⟨g, he⟩
    · rcases writeBack_cases s with ⟨hadm, hb⟩ | ⟨f, hb⟩
      · refine .inr (.inr ⟨hadm, by rw [State.eopStore_width]; exact hm, ?_⟩)
        simp only [key, he, hb, bind, Except.bind]
        exact confirmInterrupt_cases s.afterWriteBack (intSel (s.packetWord 3))
      · exact .inr (.inl ⟨f, by simp only [key, he, hb, bind, Except.bind]⟩)
    · exact .inr (.inl ⟨g, by simp only [key, he, bind, Except.bind]⟩)

end Sys2Proof.Machine
end

