-- ==== Sys2Proof/Laws/Step.lean ====
section
/-! SUPPORT. The inversion lemmas of `exec` and `step`: all that one step can do, said once. -/

namespace Sys2Proof.Machine

/-- The states a handler can end in, by the packet and the state it ran from, whether it then completes or raises. -/
inductive PacketEnd (i : Instr) (s : State) : State → Prop where
  /-- only the `Packet` event -/
  | plain : PacketEnd i s (s.emitPacket i)
  /-- a SETREG copy inside its region (R130) -/
  | regs (r : Region) (off : Nat) (ws : List Word) (hi : i.handler = .setReg r)
      (hb : off + ws.length ≤ regionCap s.params r) :
      PacketEnd i s ((s.emitPacket i).setRegs (regionBase s.params r + off) ws)
  /-- INDEX_TYPE's word (R150) -/
  | indexType (w : Word) (hi : i.handler = .indexType) :
      PacketEnd i s ((s.emitPacket i).setReg s.params.ixIndexType w)
  /-- DRAW_INDEX_2's staging and notification (R152) -/
  | indexed (hi : i.handler = .drawIndex2) : PacketEnd i s (drawIndex2Result (s.emitPacket i))
  /-- DRAW_INDEX_AUTO's staging and notification (R156) -/
  | auto (hi : i.handler = .drawIndexAuto) : PacketEnd i s (drawIndexAutoResult (s.emitPacket i))
  /-- EVENT_WRITE_EOP's write-back, to admitted memory outside the stream (R176) -/
  | wrote (hi : i.handler = .eventWriteEop)
      (ha : s.admits s.eopAddr.toNat (StoreData.width s.eopStore) = true)
      (hm : s.missesStream s.eopAddr.toNat (StoreData.width s.eopStore) = true) :
      PacketEnd i s (s.emitPacket i).afterWriteBack
  /-- EVENT_WRITE_EOP's write-back and its interrupt (R178) -/
  | interrupted (hi : i.handler = .eventWriteEop)
      (ha : s.admits s.eopAddr.toNat (StoreData.width s.eopStore) = true)
      (hm : s.missesStream s.eopAddr.toNat (StoreData.width s.eopStore) = true) :
      PacketEnd i s ((s.emitPacket i).afterWriteBack.emit .irq)

/-- What a packet can do, given what its handler can do: overrun, or end in one of the handler's states and then
advance or raise. -/
theorem runPacket_end (i : Instr) (handler : State → Except Stop State) (s t : State)
    (h : runPacket i handler s = .next t)
    (hok : ∀ u, handler (s.emitPacket i) = .ok u → PacketEnd i s u)
    (hraise : ∀ u f v, handler (s.emitPacket i) = .error (.raised u f v) → PacketEnd i s u) :
    (s.overruns i.count = true ∧
        t = s.raise .streamOverrun s.headerWord (BitVec.ofNat 64 (packetSize i.count)) i.count) ∨
      (s.overruns i.count = false ∧ ∃ u, PacketEnd i s u ∧
        (t = u.advance (packetSize i.count) ∨ ∃ f v, t = u.raise f s.headerWord v i.count)) := by
  rcases runPacket_cases i handler s t h with h | ⟨ho, u, hu, rfl⟩ | ⟨ho, u, f, v, hu, rfl⟩
  · exact .inl h
  · exact .inr ⟨ho, u, hok u hu, .inl rfl⟩
  · exact .inr ⟨ho, u, hraise u f v hu, .inr ⟨f, v, rfl⟩⟩

theorem inert_end (i : Instr) (s t : State) (h : runPacket i .ok s = .next t) :
    (s.overruns i.count = true ∧
        t = s.raise .streamOverrun s.headerWord (BitVec.ofNat 64 (packetSize i.count)) i.count) ∨
      (s.overruns i.count = false ∧ ∃ u, PacketEnd i s u ∧
        (t = u.advance (packetSize i.count) ∨ ∃ f v, t = u.raise f s.headerWord v i.count)) :=
  runPacket_end i .ok s t h (by intro u hu; cases hu; exact .plain) (by intro u f v hu; cases hu)

theorem setReg_end (i : Instr) (r : Region) (count : BitVec 14) (hi : i.handler = .setReg r) (s : State) :
    (∀ u, setRegHandler r count (s.emitPacket i) = .ok u → PacketEnd i s u) ∧
      ∀ u f v, setRegHandler r count (s.emitPacket i) = .error (.raised u f v) → PacketEnd i s u := by
  rcases setRegHandler_cases r count (s.emitPacket i) with ⟨f, v, h⟩ | ⟨f, h⟩ | ⟨hb, h⟩
  · exact ⟨by intro u hu; simp [h] at hu, by intro u f v hu; simp [h] at hu; rw [← hu.1]; exact .plain⟩
  · exact ⟨by intro u hu; simp [h] at hu, by intro u f v hu; simp [h] at hu⟩
  · refine ⟨?_, by intro u f v hu; simp [h] at hu⟩
    intro u hu
    rw [h] at hu
    injection hu with hu
    rw [← hu]
    exact .regs r _ _ hi (by simpa using hb)

theorem indexType_end (i : Instr) (count : BitVec 14) (hi : i.handler = .indexType) (s : State) :
    (∀ u, indexTypeHandler count (s.emitPacket i) = .ok u → PacketEnd i s u) ∧
      ∀ u f v, indexTypeHandler count (s.emitPacket i) = .error (.raised u f v) → PacketEnd i s u := by
  rcases indexTypeHandler_cases count (s.emitPacket i) with ⟨f, v, h⟩ | ⟨f, h⟩ | h
  · exact ⟨by intro u hu; simp [h] at hu, by intro u f v hu; simp [h] at hu; rw [← hu.1]; exact .plain⟩
  · exact ⟨by intro u hu; simp [h] at hu, by intro u f v hu; simp [h] at hu⟩
  · refine ⟨?_, by intro u f v hu; simp [h] at hu⟩
    intro u hu
    rw [h] at hu
    injection hu with hu
    rw [← hu]
    exact .indexType _ hi

theorem drawIndex2_end (i : Instr) (count : BitVec 14) (hi : i.handler = .drawIndex2) (s : State) :
    (∀ u, drawIndex2Handler count (s.emitPacket i) = .ok u → PacketEnd i s u) ∧
      ∀ u f v, drawIndex2Handler count (s.emitPacket i) = .error (.raised u f v) → PacketEnd i s u := by
  rcases drawIndex2Handler_cases count (s.emitPacket i) with ⟨f, v, h⟩ | ⟨f, h⟩ | h
  · exact ⟨by intro u hu; simp [h] at hu, by intro u f v hu; simp [h] at hu; rw [← hu.1]; exact .plain⟩
  · exact ⟨by intro u hu; simp [h] at hu, by intro u f v hu; simp [h] at hu⟩
  · refine ⟨?_, by intro u f v hu; simp [h] at hu⟩
    intro u hu
    rw [h] at hu
    injection hu with hu
    rw [← hu]
    exact .indexed hi

theorem drawIndexAuto_end (i : Instr) (count : BitVec 14) (hi : i.handler = .drawIndexAuto) (s : State) :
    (∀ u, drawIndexAutoHandler count (s.emitPacket i) = .ok u → PacketEnd i s u) ∧
      ∀ u f v, drawIndexAutoHandler count (s.emitPacket i) = .error (.raised u f v) → PacketEnd i s u := by
  rcases drawIndexAutoHandler_cases count (s.emitPacket i) with ⟨f, v, h⟩ | ⟨f, h⟩ | h
  · exact ⟨by intro u hu; simp [h] at hu, by intro u f v hu; simp [h] at hu; rw [← hu.1]; exact .plain⟩
  · exact ⟨by intro u hu; simp [h] at hu, by intro u f v hu; simp [h] at hu⟩
  · refine ⟨?_, by intro u f v hu; simp [h] at hu⟩
    intro u hu
    rw [h] at hu
    injection hu with hu
    rw [← hu]
    exact .auto hi

theorem eventWriteEop_end (i : Instr) (count : BitVec 14) (hi : i.handler = .eventWriteEop) (s : State) :
    (∀ u, eventWriteEopHandler count (s.emitPacket i) = .ok u → PacketEnd i s u) ∧
      ∀ u f v, eventWriteEopHandler count (s.emitPacket i) = .error (.raised u f v) → PacketEnd i s u := by
  rcases eventWriteEopHandler_cases count (s.emitPacket i) with
    ⟨f, v, h⟩ | ⟨f, h⟩ | ⟨ha, hm, ⟨f, v, h⟩ | h | h⟩
  · exact ⟨by intro u hu; simp [h] at hu, by intro u f v hu; simp [h] at hu; rw [← hu.1]; exact .plain⟩
  · exact ⟨by intro u hu; simp [h] at hu, by intro u f v hu; simp [h] at hu⟩
  · exact ⟨by intro u hu; simp [h] at hu, by intro u f v hu; simp [h] at hu; rw [← hu.1]; exact .wrote hi ha hm⟩
  · refine ⟨?_, by intro u f v hu; simp [h] at hu⟩
    intro u hu
    rw [h] at hu
    injection hu with hu
    rw [← hu]
    exact .wrote hi ha hm
  · refine ⟨?_, by intro u f v hu; simp [h] at hu⟩
    intro u hu
    rw [h] at hu
    injection hu with hu
    rw [← hu]
    exact .interrupted hi ha hm

/-- All that `exec` can do when it answers a next state. -/
theorem exec_cases (i : Instr) (s t : State) (h : exec i s = .next t) :
    (s.overruns i.count = true ∧
        t = s.raise .streamOverrun s.headerWord (BitVec.ofNat 64 (packetSize i.count)) i.count) ∨
      (s.overruns i.count = false ∧ ∃ u, PacketEnd i s u ∧
        (t = u.advance (packetSize i.count) ∨ ∃ f v, t = u.raise f s.headerWord v i.count)) := by
  cases i with
  | nop c => exact inert_end _ s t h
  | dispatchDirect c => exact inert_end _ s t h
  | drawIndex2 c => exact runPacket_end _ _ s t h (drawIndex2_end _ c rfl s).1 (drawIndex2_end _ c rfl s).2
  | indexType c => exact runPacket_end _ _ s t h (indexType_end _ c rfl s).1 (indexType_end _ c rfl s).2
  | drawIndexAuto c => exact runPacket_end _ _ s t h (drawIndexAuto_end _ c rfl s).1 (drawIndexAuto_end _ c rfl s).2
  | writeData c => exact inert_end _ s t h
  | waitRegMem c => exact inert_end _ s t h
  | eventWriteEop c => exact runPacket_end _ _ s t h (eventWriteEop_end _ c rfl s).1 (eventWriteEop_end _ c rfl s).2
  | eventWriteEos c => exact inert_end _ s t h
  | dmaData c => exact inert_end _ s t h
  | acquireMem c => exact inert_end _ s t h
  | setContextReg c => exact runPacket_end _ _ s t h (setReg_end _ .ctx c rfl s).1 (setReg_end _ .ctx c rfl s).2
  | setShReg c => exact runPacket_end _ _ s t h (setReg_end _ .sh c rfl s).1 (setReg_end _ .sh c rfl s).2
  | setUconfigReg c => exact runPacket_end _ _ s t h (setReg_end _ .uc c rfl s).1 (setReg_end _ .uc c rfl s).2

/-- A packet that overruns the stream faults, whichever it is (R108). -/
theorem exec_overrun (i : Instr) (s : State) (h : s.overruns i.count = true) :
    exec i s = .next (s.raise .streamOverrun s.headerWord (BitVec.ofNat 64 (packetSize i.count)) i.count) := by
  cases i <;> exact runPacket_overrun _ _ s h

/-- No packet is refused: every instruction has its meaning. -/
theorem exec_not_refused (i : Instr) (s : State) (r : Refusal) : exec i s ≠ .refused r := by
  cases i <;> exact runPacket_not_refused _ _ s r

/-- All that the header fetch can do. -/
theorem fetchHeader_ok (s : State) (hdr : Word) (h : s.fetchHeader = .ok hdr) :
    s.phase = .scanning ∧ s.admits (s.packetAddr 0) 4 = true ∧ hdr = s.headerWord := by
  unfold State.fetchHeader at h
  split at h
  · next hp =>
    split at h
    · next ha => exact ⟨hp, ha, by injection h with h; exact h.symm⟩
    · cases h
  · cases h

theorem fetchHeader_of (s : State) (hp : s.phase = .scanning) (ha : s.admits (s.packetAddr 0) 4 = true) :
    s.fetchHeader = .ok s.headerWord := by
  simp [State.fetchHeader, hp, ha]

/-- All that one step can do when it answers a next state. -/
theorem step_cases (s t : State) (h : step s = .next t) :
    s.phase = .scanning ∧ s.admits (s.packetAddr 0) 4 = true ∧
      ((∃ r, decodeHeader s.headerWord = .error r ∧ t = s.raiseReject s.headerWord r) ∨
        ∃ i, decodeHeader s.headerWord = .ok i ∧ exec i s = .next t) := by
  unfold step at h
  split at h
  · cases h
  · next hdr hf =>
    obtain ⟨hp, ha, rfl⟩ := fetchHeader_ok s hdr hf
    refine ⟨hp, ha, ?_⟩
    split at h
    · next r hr => exact .inl ⟨r, hr, by injection h with h; exact h.symm⟩
    · next i hi => exact .inr ⟨i, hi, h⟩

/-- A rejected header enters one fault, whichever of the two it is. -/
theorem raiseReject_cases (s : State) (hdr : Word) (r : HeaderReject) :
    ∃ f v c, s.raiseReject hdr r = s.raise f hdr v c := by
  cases r with
  | unsupportedFamily t => exact ⟨_, _, _, rfl⟩
  | unknownOpcode op c => exact ⟨_, _, _, rfl⟩

/-! ## What every handler's end leaves alone -/

/-- A handler changes the register file, memory and the trace only (10_state.md R31). -/
theorem packetEnd_frame (i : Instr) (s u : State) (h : PacketEnd i s u) :
    u = { s with rf := u.rf, mem := u.mem, trace := u.trace } := by
  cases h with
  | indexed hi =>
    have h := drawIndex2Result_eq (s.emitPacket i)
    generalize drawIndex2Result (s.emitPacket i) = u at *
    generalize u.snapshot = n at *
    rw [h]
    rfl
  | auto hi =>
    have h := drawIndexAutoResult_eq (s.emitPacket i)
    generalize drawIndexAutoResult (s.emitPacket i) = u at *
    generalize u.snapshot = n at *
    rw [h]
    rfl
  | _ => rfl

/-- The events a handler's end adds. -/
theorem packetEnd_trace (i : Instr) (s u : State) (h : PacketEnd i s u) :
    ∃ evs, u.trace = s.trace ++ .packet s.cursor i.opcode i.count i.handler :: evs ∧
      (∀ e ∈ evs, e.isFault = false ∧ e.isPacket = false) := by
  cases h with
  | plain => exact ⟨[], rfl, by simp⟩
  | regs => exact ⟨[], rfl, by simp⟩
  | indexType => exact ⟨[], rfl, by simp⟩
  | indexed => exact ⟨[.drawNotify .indexed _], by simp [drawIndex2Result, State.notifyDraw, State.stageIndexed]; rfl,
      by simp [Event.isFault, Event.isPacket]⟩
  | auto => exact ⟨[.drawNotify .auto _], by simp [drawIndexAutoResult, State.notifyDraw, State.stageAuto]; rfl,
      by simp [Event.isFault, Event.isPacket]⟩
  | wrote => exact ⟨[.writeBack s.eopAddr s.eopStore], by simp [State.afterWriteBack]; exact ⟨rfl, rfl⟩,
      by simp [Event.isFault, Event.isPacket]⟩
  | interrupted => exact ⟨[.writeBack s.eopAddr s.eopStore, .irq], by simp [State.afterWriteBack]; exact ⟨rfl, rfl⟩,
      by simp [Event.isFault, Event.isPacket]⟩

end Sys2Proof.Machine
end

