-- ==== Sys2Proof/Laws/Frames.lean ====
section
/-! SUPPORT. From what a handler answers to the frames of Sys2Proof/Safety.lean: a packet that completes, and a packet
that faults. -/

namespace Sys2Proof.Machine

theorem fits_iff (s : State) (i : Instr) : s.Fits i ↔ s.overruns i.count = false := by
  rw [overruns_eq_false]
  rfl

/-- The advance of a handler's end is a completed packet. -/
theorem completed_advance (s u : State) (i : Instr) (events : List Event) (hf : s.Fits i)
    (hu : u = { s with rf := u.rf, mem := u.mem, trace := s.trace ++ events }) :
    Completed s i.count events (u.advance (packetSize i.count)) := by
  have hf' : s.cursor.toNat + packetSize i.count ≤ s.streamLen.toNat := hf
  have hc := advance_cursor_toNat s _ hf'
  have he := advance_end_iff s _ hf'
  have htrace : u.trace = s.trace ++ events := by rw [hu]
  have hcur : u.cursor = s.cursor := by rw [hu]
  have hlen : u.streamLen = s.streamLen := by rw [hu]
  have hphase : u.phase = s.phase := by rw [hu]
  have hsize : packetSize i.count = 4 * (i.count.toNat + 1) := rfl
  constructor
  · rw [State.advance_cursor, hcur, hc, hsize]
  · simp only [State.advance_phase, hcur, hlen, hphase, ← hsize, he]
  · simp only [State.advance_trace, hcur, hlen, htrace, ← hsize, he]
    split <;> simp
  · rw [State.advance_sinkRegistered, hu]
  · rw [State.advance_halted, hu]
  · rw [State.advance_streamBase, hu]
  · rw [State.advance_streamLen, hu]
  · rw [State.advance_faultRec, hu]
  · rw [State.advance_params, hu]

/-- Raising at a handler's end is a fault entered. -/
theorem faultEntered_raise (s u : State) (events : List Event) (f : FaultCause) (hdr : Word) (v : DWord)
    (n : BitVec 14) (hu : u = { s with rf := u.rf, mem := u.mem, trace := s.trace ++ events }) :
    FaultEntered s events f hdr v n (u.raise f hdr v n) := by
  have hcur : u.cursor = s.cursor := by rw [hu]
  constructor
  · rfl
  · rfl
  · simp only [State.raise_faultRec, State.faultRecord, hcur]
  · simp only [State.raise_trace, State.faultRecord, hcur]
    rw [hu]
  · rw [State.raise_cursor, hu]
  · rw [State.raise_streamBase, hu]
  · rw [State.raise_streamLen, hu]
  · rw [State.raise_sinkRegistered, hu]
  · rw [State.raise_params, hu]

/-- A packet whose handler answers `u` completes in it. -/
theorem runPacket_completes (i : Instr) (handler : State → Except Stop State) (s u : State) (events : List Event)
    (hf : s.Fits i) (hh : handler (s.emitPacket i) = .ok u)
    (hu : u = { s with rf := u.rf, mem := u.mem, trace := s.trace ++ events }) :
    ∃ t, runPacket i handler s = .next t ∧ Completed s i.count events t ∧ t.rf = u.rf ∧ t.mem = u.mem :=
  ⟨_, runPacket_ok i handler s u ((fits_iff s i).mp hf) hh, completed_advance s u i events hf hu, rfl, rfl⟩

/-- A packet whose handler raises from `u` enters that fault. -/
theorem runPacket_faults (i : Instr) (handler : State → Except Stop State) (s u : State) (events : List Event)
    (f : FaultCause) (v : DWord) (hf : s.Fits i) (hh : handler (s.emitPacket i) = .error (.raised u f v))
    (hu : u = { s with rf := u.rf, mem := u.mem, trace := s.trace ++ events }) :
    ∃ t, runPacket i handler s = .next t ∧ FaultEntered s events f s.headerWord v i.count t ∧ t.rf = u.rf ∧
      t.mem = u.mem :=
  ⟨_, runPacket_raised i handler s u f v ((fits_iff s i).mp hf) hh, faultEntered_raise s u events f _ v _ hu, rfl,
    rfl⟩

end Sys2Proof.Machine
end

