-- ==== Sys2Proof/Laws/Operands.lean ====
section
/-! SUPPORT. The fields of headers and payload words as numbers, and the bytes of a stored value. -/

namespace Sys2Proof

theorem headerType_toNat (h : Word) : (headerType h).toNat = h.toNat / 2 ^ 30 := by
  have := h.isLt
  simp [headerType, BitVec.extractLsb'_toNat, Nat.shiftRight_eq_div_pow]
  omega

theorem headerType_eq_three (h : Word) : headerType h = 3#2 ↔ h.toNat / 2 ^ 30 = 3 := by
  rw [← headerType_toNat]
  exact ⟨fun e => by rw [e]; rfl, fun e => BitVec.eq_of_toNat_eq e⟩

theorem headerOpcode_toNat (h : Word) : (headerOpcode h).toNat = h.toNat / 2 ^ 8 % 2 ^ 8 := by
  simp [headerOpcode, BitVec.extractLsb'_toNat, Nat.shiftRight_eq_div_pow]

theorem headerCount_eq (h : Word) : headerCount h = BitVec.ofNat 14 (h.toNat / 2 ^ 16 % 2 ^ 14 + 1) := by
  apply BitVec.eq_of_toNat_eq
  simp [headerCount, headerCountField, BitVec.extractLsb'_toNat, Nat.shiftRight_eq_div_pow]

/-- The bytes of a value, least significant first (R54). -/
theorem leBytes_getElem {w : Nat} (v : BitVec w) (n k : Nat) (hk : k < (leBytes n v).length) :
    (leBytes n v)[k] = BitVec.ofNat 8 (v.toNat / 2 ^ (8 * k)) := by
  apply BitVec.eq_of_toNat_eq
  simp [leBytes, BitVec.extractLsb'_toNat, Nat.shiftRight_eq_div_pow]

end Sys2Proof

namespace Sys2Proof.Machine

theorem hasWords_eq_true (count : BitVec 14) (n : Nat) : hasWords count n = true ↔ n ≤ count.toNat := by
  simp [hasWords]

theorem hasWords_eq_false (count : BitVec 14) (n : Nat) : hasWords count n = false ↔ count.toNat < n := by
  simp [hasWords]

theorem regOffset_toNat (w : Word) : (regOffset w).toNat = w.toNat % 2 ^ 16 := by
  simp [regOffset, BitVec.extractLsb'_toNat]

theorem dataSel_toNat (w : Word) : (dataSel w).toNat = w.toNat / 2 ^ 29 := by
  have := w.isLt
  simp [dataSel, BitVec.extractLsb'_toNat, Nat.shiftRight_eq_div_pow]
  omega

theorem dataSel_eq_iff (w : Word) (n : Nat) (hn : n < 8) : dataSel w = BitVec.ofNat 3 n ↔ w.toNat / 2 ^ 29 = n := by
  rw [← dataSel_toNat, ← BitVec.toNat_inj, BitVec.toNat_ofNat, Nat.mod_eq_of_lt (by simpa using hn)]

theorem intSel_toNat (w : Word) : (intSel w).toNat = w.toNat / 2 ^ 24 % 4 := by
  simp [intSel, BitVec.extractLsb'_toNat, Nat.shiftRight_eq_div_pow]

theorem intSel_eq_iff (w : Word) (n : Nat) (hn : n < 4) : intSel w = BitVec.ofNat 2 n ↔ w.toNat / 2 ^ 24 % 4 = n := by
  rw [← intSel_toNat, ← BitVec.toNat_inj, BitVec.toNat_ofNat, Nat.mod_eq_of_lt (by simpa using hn)]

/-- The write-back address as a number (R85). -/
theorem writeBackAddr_toNat (hiBits : Nat) (w2 w3 : Word) :
    (writeBackAddr hiBits w2 w3).toNat = w3.toNat % 2 ^ hiBits * 2 ^ 32 + w2.toNat := by
  have h3 := w3.isLt
  have hlt : w3.toNat % 2 ^ hiBits < 2 ^ 32 := lt_of_le_of_lt (Nat.mod_le _ _) h3
  have hhi : ((w3.extractLsb' 0 hiBits).setWidth 64 <<< 32).toNat = (w3.toNat % 2 ^ hiBits) <<< 32 := by
    simp only [BitVec.toNat_shiftLeft, BitVec.toNat_setWidth, BitVec.extractLsb'_toNat, Nat.shiftRight_zero,
      Nat.shiftLeft_eq]
    rw [Nat.mod_eq_of_lt (a := w3.toNat % 2 ^ hiBits) (by omega), Nat.mod_eq_of_lt (by omega)]
  have hlo : (w2.setWidth 64).toNat = w2.toNat := by
    rw [BitVec.toNat_setWidth]
    exact Nat.mod_eq_of_lt (by have := w2.isLt; omega)
  rw [writeBackAddr, BitVec.toNat_or, hhi, hlo, ← Nat.shiftLeft_add_eq_or_of_lt w2.isLt, Nat.shiftLeft_eq]

/-- The index base is the high word above the low word (R24). -/
theorem indexBase_eq_append (hi lo : Word) : indexBase hi lo = hi ++ lo := by
  apply BitVec.eq_of_toNat_eq
  have hhi : (hi.setWidth 64 <<< 32).toNat = hi.toNat <<< 32 := by
    have := hi.isLt
    simp only [BitVec.toNat_shiftLeft, BitVec.toNat_setWidth, Nat.shiftLeft_eq]
    rw [Nat.mod_eq_of_lt (a := hi.toNat) (by omega), Nat.mod_eq_of_lt (by omega)]
  have hlo : (lo.setWidth 64).toNat = lo.toNat := by
    rw [BitVec.toNat_setWidth]
    exact Nat.mod_eq_of_lt (by have := lo.isLt; omega)
  rw [indexBase, BitVec.toNat_or, BitVec.toNat_append, hhi, hlo]

end Sys2Proof.Machine
end

