-- ==== Sys2Proof/Laws/PerInstr.lean ====
section
/-! SUPPORT. A statement about every instruction as syntax, one lemma per constructor: the fields of its canonical header
word, and the route of its opcode back to its handler id (30_encoding.md R87). -/

namespace Sys2Proof

/-- The canonical header of `i` has type 3, the opcode of its row and its count, and its opcode routes to it. -/
def Laws.HeaderFields.Statement (i : Instr) : Prop :=
  headerType (encode i) = 3#2 ∧ headerOpcode (encode i) = i.opcode ∧ headerCount (encode i) = i.count ∧
    route i.opcode = some i.handler

theorem headerFields_of (i : Instr) : Laws.HeaderFields.Statement i :=
  ⟨headerType_makeHeader _ _ _, headerOpcode_makeHeader _ _ _, headerCount_makeHeader _ _ _, route_opcode _⟩

theorem Laws.HeaderFields.nop (count : BitVec 14) : Laws.HeaderFields.Statement (.nop count) :=
  headerFields_of _

theorem Laws.HeaderFields.dispatchDirect (count : BitVec 14) : Laws.HeaderFields.Statement (.dispatchDirect count) :=
  headerFields_of _

theorem Laws.HeaderFields.drawIndex2 (count : BitVec 14) : Laws.HeaderFields.Statement (.drawIndex2 count) :=
  headerFields_of _

theorem Laws.HeaderFields.indexType (count : BitVec 14) : Laws.HeaderFields.Statement (.indexType count) :=
  headerFields_of _

theorem Laws.HeaderFields.drawIndexAuto (count : BitVec 14) : Laws.HeaderFields.Statement (.drawIndexAuto count) :=
  headerFields_of _

theorem Laws.HeaderFields.writeData (count : BitVec 14) : Laws.HeaderFields.Statement (.writeData count) :=
  headerFields_of _

theorem Laws.HeaderFields.waitRegMem (count : BitVec 14) : Laws.HeaderFields.Statement (.waitRegMem count) :=
  headerFields_of _

theorem Laws.HeaderFields.eventWriteEop (count : BitVec 14) : Laws.HeaderFields.Statement (.eventWriteEop count) :=
  headerFields_of _

theorem Laws.HeaderFields.eventWriteEos (count : BitVec 14) : Laws.HeaderFields.Statement (.eventWriteEos count) :=
  headerFields_of _

theorem Laws.HeaderFields.dmaData (count : BitVec 14) : Laws.HeaderFields.Statement (.dmaData count) :=
  headerFields_of _

theorem Laws.HeaderFields.acquireMem (count : BitVec 14) : Laws.HeaderFields.Statement (.acquireMem count) :=
  headerFields_of _

theorem Laws.HeaderFields.setContextReg (count : BitVec 14) : Laws.HeaderFields.Statement (.setContextReg count) :=
  headerFields_of _

theorem Laws.HeaderFields.setShReg (count : BitVec 14) : Laws.HeaderFields.Statement (.setShReg count) :=
  headerFields_of _

theorem Laws.HeaderFields.setUconfigReg (count : BitVec 14) : Laws.HeaderFields.Statement (.setUconfigReg count) :=
  headerFields_of _

end Sys2Proof
end

