-- ==== Sys2Proof/Tests/Slice0.lean ====
section
/-! SUPPORT. The model's own tests. Expected values come from the spec's worked examples and vectors
(spec/95_test_vectors.md; each test names its vector) or from its tables. The last part shows, for every statement with
hypotheses, a state and operands that meet them. -/

open Sys2Proof Sys2Proof.Machine

namespace Sys2Proof.Tests

set_option Elab.async false

/-! ## Helpers -/

/-- A decoder that `Start` has put to work on the words `ws` at `base`, from reset. -/
def startedAt (base : Nat) (ws : List Word) : State :=
  { State.reset with
    mem := Memory.write [] base (streamBytes ws)
    streamBase := BitVec.ofNat 64 base
    streamLen := BitVec.ofNat 32 (4 * ws.length)
    phase := .scanning }

/-- The same at 0x1000, the place of the spec's vectors. -/
def started (ws : List Word) : State := startedAt 0x1000 ws

/-- With an interrupt sink. -/
def withSink (s : State) : State := { s with sinkRegistered := true }

/-- With memory that is not valid at `[base, base + size)`. -/
def withHole (s : State) (base size : Nat) : State :=
  { s with params := { s.params with holes := [⟨base, size⟩] } }

/-- The outcome is a next state of which `p` holds. -/
def leaves (o : Host.Outcome State Fault Refusal) (p : State → Bool) : Bool :=
  match o with
  | .next t => p t
  | _ => false

/-- The outcome is a next state. -/
def goesOn (o : Host.Outcome State Fault Refusal) : Bool := leaves o fun _ => true

/-- The host transaction is accepted and leaves a state of which `p` holds. -/
def accepts (r : HostReply) (p : State → Bool) : Bool :=
  match r with
  | .accepted t => p t
  | .refused => false

theorem next_of_leaves {o : Host.Outcome State Fault Refusal} {p : State → Bool} (h : leaves o p = true) :
    ∃ t, o = .next t ∧ p t = true := by
  cases o with
  | next t => exact ⟨t, rfl, h⟩
  | fault r => cases h
  | refused r => cases h

theorem accepted_of_accepts {r : HostReply} {p : State → Bool} (h : accepts r p = true) :
    ∃ t, r = .accepted t ∧ p t = true := by
  cases r with
  | accepted t => exact ⟨t, rfl, h⟩
  | refused => cases h

theorem next_of_goesOn {o : Host.Outcome State Fault Refusal} (h : goesOn o = true) : ∃ t, o = .next t := by
  cases o with
  | next t => exact ⟨t, rfl⟩
  | fault r => cases h
  | refused r => cases h

/-- One step of the machine on the words `ws`. -/
def ran (ws : List Word) (p : State → Bool) : Bool := leaves (step (started ws)) p

/-- `n` bytes of memory from `a` on. -/
def bytesAt (s : State) (a n : Nat) : List Byte := (List.range n).map fun k => s.mem.read (a + k)

/-- The record of a fault in the first packet. -/
def rec0 (code : FaultCause) (header : Word) (value : DWord) (count : BitVec 14) : FaultRecord :=
  { code := code, offset := 0#32, header := header, value := value, count := count }

/-! ## WellFormed: each check refuses an ill-formed term -/

theorem test_wf_drawIndex2 : ¬ (Instr.drawIndex2 4#14).WellFormed ∧ (Instr.drawIndex2 5#14).WellFormed := by decide
theorem test_wf_indexType : ¬ (Instr.indexType 0#14).WellFormed ∧ (Instr.indexType 1#14).WellFormed := by decide
theorem test_wf_drawIndexAuto :
    ¬ (Instr.drawIndexAuto 1#14).WellFormed ∧ (Instr.drawIndexAuto 2#14).WellFormed := by decide
theorem test_wf_eventWriteEop :
    ¬ (Instr.eventWriteEop 4#14).WellFormed ∧ (Instr.eventWriteEop 5#14).WellFormed := by decide
theorem test_wf_setContextReg :
    ¬ (Instr.setContextReg 0#14).WellFormed ∧ (Instr.setContextReg 1#14).WellFormed := by decide
theorem test_wf_setShReg : ¬ (Instr.setShReg 0#14).WellFormed ∧ (Instr.setShReg 1#14).WellFormed := by decide
theorem test_wf_setUconfigReg :
    ¬ (Instr.setUconfigReg 0#14).WellFormed ∧ (Instr.setUconfigReg 1#14).WellFormed := by decide
theorem test_wf_inert : ∀ i ∈ [Instr.nop 0#14, .dispatchDirect 0#14, .writeData 0#14, .waitRegMem 0#14,
    .eventWriteEos 0#14, .dmaData 0#14, .acquireMem 0#14], i.WellFormed := by decide
theorem test_params_inside : ¬ ({ Params.standard with ucCap := 0x1001 } : Params).RegionsInside := by decide
theorem test_params_apart : ¬ ({ Params.standard with shCap := 0x7401 } : Params).RegionsApart := by decide
theorem test_params_distinct : ¬ ({ Params.standard with ixBaseLo := 0xA1F9 } : Params).IndicesDistinct := by decide
theorem test_params_indices : ¬ ({ Params.standard with ixMaxSize := 0xD000 } : Params).IndicesInside := by decide
theorem test_params_addrHiBits : ¬ ({ Params.standard with addrHiBits := 0 } : Params).AddrHiBitsInRange ∧
    ¬ ({ Params.standard with addrHiBits := 33 } : Params).AddrHiBitsInRange := by decide

/-! ## Decoding: bytes written out from the header layout of R71, R72 and R87, lowest address first -/

/-- The bytes decode to the packet. -/
def decodesTo (bs : List Byte) (i : Instr) : Bool :=
  match decode bs with
  | .ok j => j == i
  | .error _ => false

theorem test_decode_nop : decodesTo [0x00#8, 0x10#8, 0xFF#8, 0xFF#8] (.nop 0#14) = true := by decide
theorem test_decode_dispatchDirect : decodesTo [0x00#8, 0x15#8, 0x03#8, 0xC0#8] (.dispatchDirect 4#14) = true := by
  decide
theorem test_decode_drawIndex2 : decodesTo [0x00#8, 0x27#8, 0x04#8, 0xC0#8] (.drawIndex2 5#14) = true := by decide
theorem test_decode_indexType : decodesTo [0x00#8, 0x2A#8, 0x00#8, 0xC0#8] (.indexType 1#14) = true := by decide
theorem test_decode_drawIndexAuto : decodesTo [0x00#8, 0x2D#8, 0x01#8, 0xC0#8] (.drawIndexAuto 2#14) = true := by
  decide
theorem test_decode_writeData : decodesTo [0x00#8, 0x37#8, 0x03#8, 0xC0#8] (.writeData 4#14) = true := by decide
theorem test_decode_waitRegMem : decodesTo [0x00#8, 0x3C#8, 0x05#8, 0xC0#8] (.waitRegMem 6#14) = true := by decide
theorem test_decode_eventWriteEop : decodesTo [0x00#8, 0x47#8, 0x04#8, 0xC0#8] (.eventWriteEop 5#14) = true := by
  decide
theorem test_decode_eventWriteEos : decodesTo [0x00#8, 0x48#8, 0x03#8, 0xC0#8] (.eventWriteEos 4#14) = true := by
  decide
theorem test_decode_dmaData : decodesTo [0x00#8, 0x50#8, 0x05#8, 0xC0#8] (.dmaData 6#14) = true := by decide
theorem test_decode_acquireMem : decodesTo [0x00#8, 0x58#8, 0x05#8, 0xC0#8] (.acquireMem 6#14) = true := by decide
/-- The largest count, 16383, with `PREDICATE` and `SHADER_TYPE` set (D22, R75). -/
theorem test_decode_setContextReg : decodesTo [0x03#8, 0x69#8, 0xFE#8, 0xFF#8] (.setContextReg 16383#14) = true := by
  decide
theorem test_decode_setShReg : decodesTo [0x00#8, 0x76#8, 0x01#8, 0xC0#8] (.setShReg 2#14) = true := by decide
theorem test_decode_setUconfigReg : decodesTo [0x00#8, 0x79#8, 0x34#8, 0xD2#8] (.setUconfigReg 0x1235#14) = true := by
  decide
/-- D4, D6 and D7: the other families and an unlisted opcode are rejected by name. -/
theorem test_decode_rejects :
    decodeHeader 0x00000000#32 = .error (.unsupportedFamily 0#2) ∧
      decodeHeader 0x80000000#32 = .error (.unsupportedFamily 2#2) ∧
      decodeHeader 0xC0016800#32 = .error (.unknownOpcode 0x68#8 2#14) := by decide
theorem test_decode_truncated : decode [0x00#8, 0x10#8, 0xFF#8] = .error (.truncated 3) := by decide
/-- R93 and R94: the assembly notation gives the words of L1-2, L1-7, E11 and N6. -/
theorem test_assemble :
    assembleSetReg .ctx 5#32 [0xAA#32, 0xBB#32, 0xCC#32] = [0xC0036900#32, 5#32, 0xAA#32, 0xBB#32, 0xCC#32] ∧
      wb32Irq 0x2000#64 1#32 = [0xC0044700#32, 0#32, 0x2000#32, 0x22000000#32, 1#32, 0#32] ∧
      wb64Irq 0x123400002000#64 0xFFFFFFFF00000001#64 =
        [0xC0044700#32, 0#32, 0x2000#32, 0x42001234#32, 1#32, 0xFFFFFFFF#32] ∧
      nopN 3 = [0xC0021000#32, 0#32, 0#32, 0#32] ∧ nopPad = [0xFFFF1000#32] := by decide
theorem test_tableWord :
    decodeTableWord 32 0xC0036900 = some (.setContextReg 4#14) ∧ decodeTableWord 32 0xC0006800 = none := by decide

/-! ## One step -/

/-- L1-1: `NOP_PAD` completes with no register or memory effect. -/
theorem test_nop : ran [0xFFFF1000#32] (fun t => t.phase == .done && t.rf == [] &&
    t.trace == [.packet 0#32 0x10#8 0#14 .nop, .streamDone 4#32]) = true := by decide +kernel

/-- L1-11. -/
theorem test_dispatchDirect : ran [0xC0031500#32, 8#32, 8#32, 1#32, 1#32] (fun t => t.phase == .done && t.rf == [] &&
    t.trace == [.packet 0#32 0x15#8 4#14 .dispatchDirect, .streamDone 20#32]) = true := by decide +kernel

/-- L1-4, with an index type already there: the five registers and the snapshot. -/
theorem test_drawIndex2 :
    leaves (step { started [0xC0042700#32, 0x24#32, 0x1000#32, 0#32, 36#32, 2#32] with rf := [(0xA29F, 1#32)] })
      (fun t => t.rf == [(0xA1F9, 0#32), (0xA1FA, 0x1000#32), (0xA1FC, 2#32), (0xA29E, 0x24#32), (0xA29F, 1#32),
          (0xC24C, 36#32)] &&
        t.trace == [.packet 0#32 0x27#8 5#14 .drawIndex2, .drawNotify .indexed ⟨0x24#32, 1#32, 0x1000#64, 36#32, 2#32⟩,
          .streamDone 24#32]) = true := by decide +kernel

/-- X3: one word short. -/
theorem test_drawIndex2_malformed : ran [0xC0032700#32, 1#32, 2#32, 3#32, 4#32] (fun t => t.phase == .faulted &&
    t.rf == [] && t.faultRec == some (rec0 .malformedPacket 0xC0032700#32 4#64 4#14)) = true := by decide +kernel

/-- X1. -/
theorem test_indexType : ran [0xC0002A00#32, 1#32] (fun t => t.phase == .done && t.rf == [(0xA29F, 1#32)]) = true := by
  decide +kernel

/-- X2. -/
theorem test_indexType_malformed : ran [0xFFFF2A00#32] (fun t => t.trace == [.packet 0#32 0x2A#8 0#14 .indexType,
    .fault (rec0 .malformedPacket 0xFFFF2A00#32 0#64 0#14)]) = true := by decide +kernel

/-- X5, over a draw state that X4's words have set. -/
theorem test_drawIndexAuto :
    leaves (step { started [0xC0012D00#32, 3#32, 2#32] with
        rf := [(0xA1F9, 0xABCD#32), (0xA1FA, 0x20000001#32), (0xA29E, 0x100#32), (0xA29F, 1#32)] })
      (fun t => t.trace == [.packet 0#32 0x2D#8 2#14 .drawIndexAuto,
        .drawNotify .auto ⟨0x100#32, 1#32, 0xABCD20000001#64, 3#32, 2#32⟩, .streamDone 12#32]) = true := by
  decide +kernel

/-- X6: one word short. -/
theorem test_drawIndexAuto_malformed : ran [0xC0002D00#32, 3#32] (fun t => t.rf == [] &&
    t.faultRec == some (rec0 .malformedPacket 0xC0002D00#32 1#64 1#14)) = true := by decide +kernel

/-- N3: nothing is written at 0x2000. -/
theorem test_writeData : ran [0xC0033700#32, 0x500#32, 0x2000#32, 0#32, 0xDEAD#32] (fun t => t.phase == .done &&
    t.mem.readWord 0x2000 == 0#32 && t.trace == [.packet 0#32 0x37#8 4#14 .writeData, .streamDone 20#32]) = true := by
  decide +kernel

/-- N5: it does not wait. -/
theorem test_waitRegMem : ran [0xC0053C00#32, 0x13#32, 0x2000#32, 0#32, 1#32, 0xFFFFFFFF#32, 0xA#32]
    (fun t => t.phase == .done && t.trace == [.packet 0#32 0x3C#8 6#14 .waitRegMem, .streamDone 28#32]) = true := by
  decide +kernel

/-- L1-5: four bytes, least significant first, and the bytes beside them as before. -/
theorem test_eventWriteEop :
    leaves (step { started [0xC0044700#32, 0#32, 0x2000#32, 0x20000000#32, 0xDEADBEEF#32, 0#32] with
        mem := ((started [0xC0044700#32, 0#32, 0x2000#32, 0x20000000#32, 0xDEADBEEF#32, 0#32]).mem.write 0x2000
          (List.replicate 16 0x11#8)) })
      (fun t => bytesAt t 0x1FFF 10 ==
          [0x00#8, 0xEF#8, 0xBE#8, 0xAD#8, 0xDE#8, 0x11#8, 0x11#8, 0x11#8, 0x11#8, 0x11#8] &&
        t.trace == [.packet 0#32 0x47#8 5#14 .eventWriteEop, .writeBack 0x2000#64 (.data32 0xDEADBEEF#32),
          .streamDone 24#32]) = true := by decide +kernel

/-- E11: eight bytes above 4 GiB, and the interrupt after them. -/
theorem test_eventWriteEop_irq :
    leaves (step (withSink (started [0xC0044700#32, 0#32, 0x2000#32, 0x42001234#32, 1#32, 0xFFFFFFFF#32])))
      (fun t => bytesAt t 0x123400002000 8 == [1#8, 0#8, 0#8, 0#8, 0xFF#8, 0xFF#8, 0xFF#8, 0xFF#8] &&
        t.trace == [.packet 0#32 0x47#8 5#14 .eventWriteEop,
          .writeBack 0x123400002000#64 (.data64 0xFFFFFFFF00000001#64), .irq, .streamDone 24#32]) = true := by
  decide +kernel

/-- N1: no write-back and no interrupt. -/
theorem test_eventWriteEos : ran [0xC0034800#32, 0#32, 0x2000#32, 0x20000000#32, 7#32] (fun t => t.phase == .done &&
    t.mem.readWord 0x2000 == 0#32 && t.trace == [.packet 0#32 0x48#8 4#14 .eventWriteEos, .streamDone 20#32]) = true := by
  decide +kernel

/-- N2: nothing is copied. -/
theorem test_dmaData : ran [0xC0055000#32, 0#32, 0x1000#32, 0#32, 0x2000#32, 0#32, 0x40#32] (fun t =>
    t.mem.readWord 0x2000 == 0#32 && t.trace == [.packet 0#32 0x50#8 6#14 .dmaData, .streamDone 28#32]) = true := by
  decide +kernel

/-- N4. -/
theorem test_acquireMem : ran [0xC0055800#32, 0#32, 0xFFFFFFFF#32, 0#32, 0#32, 0#32, 0xA#32] (fun t => t.rf == [] &&
    t.trace == [.packet 0#32 0x58#8 6#14 .acquireMem, .streamDone 28#32]) = true := by decide +kernel

/-- L1-2. -/
theorem test_setContextReg : ran [0xC0036900#32, 5#32, 0xAA#32, 0xBB#32, 0xCC#32] (fun t => t.phase == .done &&
    t.rf == [(0xA005, 0xAA#32), (0xA006, 0xBB#32), (0xA007, 0xCC#32)]) = true := by decide +kernel

/-- S8: the high half of the offset word is ignored. -/
theorem test_setContextReg_highBits : ran [0xC0016900#32, 0xF00A0005#32, 9#32] (fun t =>
    t.rf == [(0xA005, 9#32)]) = true := by decide +kernel

/-- S2: the last word of the region. -/
theorem test_setShReg : ran [0xC0017600#32, 0x3FF#32, 0xA#32] (fun t => t.rf == [(0x2FFF, 0xA#32)]) = true := by
  decide +kernel

/-- S3: one word past the end, and no partial write. -/
theorem test_setShReg_bounds : ran [0xC0027600#32, 0x3FF#32, 0xA#32, 0xB#32] (fun t => t.rf == [] &&
    t.faultRec == some (rec0 .regionBoundsViolation 0xC0027600#32 0x3FF#64 3#14)) = true := by decide +kernel

/-- S4. -/
theorem test_setUconfigReg : ran [0xC0017900#32, 0x24C#32, 0x24#32] (fun t =>
    t.rf == [(0xC24C, 0x24#32)] && t.snapshot.numIndices == 36#32) = true := by decide +kernel

/-- S9: an offset past the region faults with no data words too. -/
theorem test_setUconfigReg_bounds : ran [0xC0007900#32, 0xFFFF#32] (fun t =>
    t.faultRec == some (rec0 .regionBoundsViolation 0xC0007900#32 0xFFFF#64 1#14)) = true := by decide +kernel

/-- D8 and D9: the overrun, and the unknown opcode that wins over it. -/
theorem test_overrun :
    ran [0xC0011000#32, 0#32] (fun t => t.trace == [.fault (rec0 .streamOverrun 0xC0011000#32 12#64 2#14)]) = true ∧
      ran [0xC0023F00#32, 0#32] (fun t =>
        t.trace == [.fault (rec0 .unknownOpcode 0xC0023F00#32 0x3F#64 3#14)]) = true := by decide +kernel

/-- `withFetchWord` makes the very next step run the word. -/
theorem test_withFetchWord :
    leaves (step (State.reset.withFetchWord 32 0xC0036900)) (fun t =>
      t.phase == .done && t.rf == [(0xA000, 0#32), (0xA001, 0#32), (0xA002, 0#32)]) = true := by decide +kernel

/-- D16, D14 and D3: `Start` at the top of the address space, misaligned, and of an empty stream. -/
theorem test_start :
    State.reset.start 0xFFFFFFFFFFFFFFFC#64 4#32 = .accepted { State.reset with
      streamBase := 0xFFFFFFFFFFFFFFFC#64, streamLen := 4#32, phase := .scanning } ∧
    State.reset.start 0x1002#64 4#32 = .accepted { State.reset with
      streamBase := 0x1002#64, streamLen := 4#32, phase := .faulted, halted := true,
      faultRec := some (rec0 .streamShapeInvalid 0#32 4#64 0#14),
      trace := [.fault (rec0 .streamShapeInvalid 0#32 4#64 0#14)] } ∧
    State.reset.start 0x1000#64 0#32 = .accepted { State.reset with
      streamBase := 0x1000#64, phase := .done, trace := [.streamDone 0#32] } := by decide +kernel

/-! ## Witnesses: the hypotheses of the statements are met, clause by clause and at the edges of their ranges -/

theorem admitted_of {s : State} {n : Nat}
    (h : ((List.range (n + 1)).all fun k => s.admits (s.packetAddr k) 4) = true) : s.PayloadAdmitted n := by
  intro k _ hk
  rw [List.all_eq_true] at h
  exact h k (List.mem_range.mpr (by omega))

/-- The invariant of a state that has not faulted, from checks that compute. -/
theorem inv_of {s : State} (hp : s.params.WellFormed) (hm : s.mem.wf ∧ ∀ c ∈ s.mem, c.1 < 2 ^ 64)
    (hr : s.rf.wf ∧ ∀ c ∈ s.rf, c.1 < s.params.regFileWords)
    (hc : s.cursor.toNat % 4 = 0 ∧ s.cursor.toNat ≤ s.streamLen.toNat ∧
      (s.phase = .scanning → s.cursor.toNat < s.streamLen.toNat) ∧ (s.phase = .done → s.cursor = s.streamLen))
    (hs : s.streamBase.toNat % 4 = 0 ∧ s.streamLen.toNat % 4 = 0 ∧ s.streamBase.toNat + s.streamLen.toNat ≤ 2 ^ 64)
    (hf : s.phase ≠ .faulted ∧ s.halted = false ∧ s.faultRec = none ∧ (∀ e ∈ s.trace, e.isFault = false) ∧
      (s.phase = .idle → s.trace = [])) : s.Inv where
  params := hp
  mem := hm.1
  memInside := hm.2
  rf := hr.1
  rfInside := hr.2
  cursorAligned := hc.1
  cursorInside := hc.2.1
  scanning := hc.2.2.1
  done := hc.2.2.2
  shape := fun _ => hs
  halted := ⟨fun h => absurd (hf.2.1.symm.trans h) (by decide), fun h => absurd h hf.1⟩
  faultRec := fun _ => hf.2.2.1
  faultTrace := fun h => absurd h hf.1
  noFault := fun _ => hf.2.2.2.1
  idle := hf.2.2.2.2

/-- The words of L1-10: four packets of three families. -/
def fourPackets : State :=
  started [0xC0017600#32, 0#32, 7#32, 0xFFFF1000#32, 0xC0002A00#32, 1#32, 0xC0044700#32, 0#32, 0x2000#32, 0x20000000#32,
    5#32, 0#32]

/-- A stream of one write-back and interrupt, with a sink (L1-7). -/
def oneIrq : State := withSink (started (wb32Irq 0x2000#64 1#32))

/-- The state D4 leaves: a fault at the first header. -/
def faultedState : State := (started [0#32]).raise .unsupportedPacketFamily 0#32 0#64 0#14

theorem fourPackets_inv : fourPackets.Inv := inv_of (by decide) (by decide +kernel) (by decide) (by decide) (by decide)
  (by decide)

theorem faultedState_inv : faultedState.Inv where
  params := by decide
  mem := by decide +kernel
  memInside := by decide +kernel
  rf := by decide
  rfInside := by decide
  cursorAligned := by decide
  cursorInside := by decide
  scanning := fun h => absurd h (by decide)
  done := fun h => absurd h (by decide)
  shape := fun h => absurd rfl h
  halted := ⟨fun _ => rfl, fun _ => rfl⟩
  faultRec := fun h => absurd rfl h
  faultTrace := fun _ => ⟨_, [], rfl, rfl, by simp⟩
  noFault := fun h => absurd rfl h
  idle := fun h => absurd h (by decide)

theorem witness_HeadersSelectTheirRow :
    0xC000FF00#32 &&& 0xC0036903#32 = 0xC0006900#32 ∧ decodeHeader 0xC0036903#32 = .ok (.setContextReg 4#14) ∧
      0xC000FF00#32 &&& 0xC0036800#32 ≠ 0xC0006900#32 := by decide

theorem witness_LowHeaderBitsAreIgnored : (0xFFFF1000#32 : Word).toNat / 2 ^ 8 = (0xFFFF10FF#32 : Word).toNat / 2 ^ 8 := by
  decide

theorem witness_EopOperandsRoundTrip : (0xFFFFFFFFFFFF#64 : DWord).toNat < 2 ^ 48 := by decide

theorem witness_StepRunsTheDecodedPacket :
    fourPackets.phase = .scanning ∧
      fourPackets.admits (fourPackets.streamBase.toNat + fourPackets.cursor.toNat) 4 = true ∧
      decode ((List.range 4).map fun k => fourPackets.mem.read
        (fourPackets.streamBase.toNat + fourPackets.cursor.toNat + k)) = .ok (.setShReg 2#14) := by decide +kernel

theorem witness_NoStepOutsideScanning :
    State.reset.phase ≠ .scanning ∧ faultedState.phase ≠ .scanning ∧ fourPackets.Inv ∧
      fourPackets.phase = .scanning := ⟨by decide, by decide, fourPackets_inv, rfl⟩

/-- Types 0, 1 and 2 (D4, D5, D6). -/
theorem witness_OtherFamiliesFault : ([0x00000000#32, 0x40000000#32, 0x80000000#32].all fun w =>
    decide ((started [w]).phase = .scanning ∧ (started [w]).admits ((started [w]).packetAddr 0) 4 = true ∧
      (started [w]).headerWord.toNat / 2 ^ 30 ≠ 3)) = true := by decide +kernel

/-- D7 (a PM4 opcode outside the set), and the two opcodes beside NOP. -/
theorem witness_UnknownOpcodesFault : ([0xC0016800#32, 0xC0000F00#32, 0xC0001100#32].all fun w =>
    decide ((started [w]).phase = .scanning ∧ (started [w]).admits ((started [w]).packetAddr 0) 4 = true ∧
      (started [w]).headerWord.toNat / 2 ^ 30 = 3 ∧ (started [w]).headerWord.toNat / 2 ^ 8 % 2 ^ 8 ∉
        [0x10, 0x15, 0x27, 0x2A, 0x2D, 0x37, 0x3C, 0x47, 0x48, 0x50, 0x58, 0x69, 0x76, 0x79])) = true := by
  decide +kernel

/-- D8: one word too long. -/
theorem witness_OverrunningPacketsFault :
    (started [0xC0011000#32, 0#32]).streamLen.toNat <
      (started [0xC0011000#32, 0#32]).cursor.toNat + 4 * ((Instr.nop 2#14).count.toNat + 1) := by decide

/-- A fault of a step (D4) and of `Start` (D15). -/
theorem witness_EveryFaultIsEnteredAlike :
    (∃ t, step (started [0#32]) = .next t ∧ (t.phase == .faulted) = true) ∧
      ∃ t, State.reset.start 0x1000#64 6#32 = .accepted t ∧ (t.phase == .faulted) = true :=
  ⟨next_of_leaves (by decide +kernel), accepted_of_accepts (by decide +kernel)⟩

/-- Each inert packet with no payload, exactly filling its stream (N7). -/
theorem witness_InertPacketsComplete : ∀ i ∈ [Instr.nop 0#14, .dispatchDirect 0#14, .writeData 0#14, .waitRegMem 0#14,
    .eventWriteEos 0#14, .dmaData 0#14, .acquireMem 0#14], (started [encode i]).Fits i := by
  unfold State.Fits
  decide +kernel

/-- A stream of one register-block write of `n` data words, at offset `off`. -/
def regStream (r : Region) (off : Word) (n : Nat) : State := started (assembleSetReg r off (List.replicate n 0xA5#32))

/-- The three regions: a range that ends where its region ends (the last word, and no word at all), a packet with no
payload, and a range one word too long. -/
theorem witness_RegisterBlockWrites : ∀ row ∈ [(Instr.setContextReg, Region.ctx, 0x2000#32),
      (Instr.setShReg, Region.sh, 0x400#32), (Instr.setUconfigReg, Region.uc, 0x1000#32)],
    ((regStream row.2.1 (row.2.2 - 1#32) 1).Fits (row.1 2#14) ∧
      (regStream row.2.1 (row.2.2 - 1#32) 1).PayloadAdmitted 2 ∧
      ((regStream row.2.1 (row.2.2 - 1#32) 1).packetWord 1).toNat % 2 ^ 16 + (2 - 1) = row.2.2.toNat) ∧
    ((regStream row.2.1 row.2.2 0).Fits (row.1 1#14) ∧
      ((regStream row.2.1 row.2.2 0).packetWord 1).toNat % 2 ^ 16 + (1 - 1) = row.2.2.toNat) ∧
    ((started (assemble (.setReg row.2.1) [])).Fits (row.1 0#14)) ∧
    ((regStream row.2.1 (row.2.2 - 1#32) 2).Fits (row.1 3#14) ∧
      (regStream row.2.1 (row.2.2 - 1#32) 2).PayloadAdmitted 1 ∧
      row.2.2.toNat < ((regStream row.2.1 (row.2.2 - 1#32) 2).packetWord 1).toNat % 2 ^ 16 + (3 - 1)) := by
  intro row h
  simp only [List.mem_cons, List.not_mem_nil, or_false] at h
  rcases h with rfl | rfl | rfl <;>
    exact ⟨⟨by unfold State.Fits; decide +kernel, admitted_of (by decide +kernel), by decide +kernel⟩,
      ⟨by unfold State.Fits; decide +kernel, by decide +kernel⟩, by unfold State.Fits; decide +kernel,
      by unfold State.Fits; decide +kernel, admitted_of (by decide +kernel), by decide +kernel⟩

/-- A write inside the region, and one that leaves it, both with a next state. -/
theorem witness_RegisterBlockWritesStayInTheirRegion :
    (∃ t, exec (.setShReg 2#14) (regStream .sh 0x3FF#32 1) = .next t) ∧
      (∃ t, exec (.setShReg 3#14) (regStream .sh 0x3FF#32 2) = .next t) ∧
      0x400 < ((regStream .sh 0x3FF#32 2).packetWord 1).toNat % 2 ^ 16 + (3 - 1) :=
  ⟨next_of_goesOn (by decide +kernel), next_of_goesOn (by decide +kernel), by decide +kernel⟩

/-- Ranges that cover the six draw-state words: 0x1F9 and 0x1FA and 0x1FC, 0x29E and 0x29F, 0x24C. -/
theorem witness_RegisterWritesReachTheDrawState :
    (regStream .ctx 0x1F9#32 4).Fits (.setContextReg 5#14) ∧ (regStream .ctx 0x1F9#32 4).PayloadAdmitted 5 ∧
      ((regStream .ctx 0x1F9#32 4).packetWord 1).toNat % 2 ^ 16 = 0x1F9 ∧
      (regStream .ctx 0x29E#32 2).Fits (.setContextReg 3#14) ∧ (regStream .ctx 0x29E#32 2).PayloadAdmitted 3 ∧
      ((regStream .ctx 0x29E#32 2).packetWord 1).toNat % 2 ^ 16 = 0x29E ∧
      (regStream .uc 0x24C#32 1).Fits (.setUconfigReg 2#14) ∧ (regStream .uc 0x24C#32 1).PayloadAdmitted 2 ∧
      ((regStream .uc 0x24C#32 1).packetWord 1).toNat % 2 ^ 16 = 0x24C ∧
      ([0x1F9#32, 0x1FA#32, 0x1FC#32, 0x29E#32, 0x29F#32].all fun off =>
        decide ((regStream .ctx off 1).params = Params.standard ∧
          ((regStream .ctx off 1).packetWord 1).toNat % 2 ^ 16 = off.toNat)) = true :=
  ⟨by unfold State.Fits; decide +kernel, admitted_of (by decide +kernel), by decide +kernel,
    by unfold State.Fits; decide +kernel, admitted_of (by decide +kernel), by decide +kernel,
    by unfold State.Fits; decide +kernel, admitted_of (by decide +kernel), by decide +kernel, by decide +kernel⟩

/-- X1 and X2. -/
theorem witness_IndexTypeStoresItsWord :
    (started [0xC0002A00#32, 1#32]).Fits (.indexType 1#14) ∧ (started [0xC0002A00#32, 1#32]).PayloadAdmitted 1 ∧
      (started [0xFFFF2A00#32]).Fits (.indexType 0#14) :=
  ⟨by unfold State.Fits; decide +kernel, admitted_of (by decide +kernel), by unfold State.Fits; decide +kernel⟩

/-- L1-4 and X3. -/
theorem witness_DrawIndex2StagesAndNotifies :
    (started [0xC0042700#32, 0x24#32, 0x1000#32, 0#32, 36#32, 2#32]).params.WellFormed ∧
      (started [0xC0042700#32, 0x24#32, 0x1000#32, 0#32, 36#32, 2#32]).Fits (.drawIndex2 5#14) ∧
      (started [0xC0042700#32, 0x24#32, 0x1000#32, 0#32, 36#32, 2#32]).PayloadAdmitted 5 ∧
      (started [0xC0032700#32, 1#32, 2#32, 3#32, 4#32]).Fits (.drawIndex2 4#14) :=
  ⟨by decide, by unfold State.Fits; decide +kernel, admitted_of (by decide +kernel),
    by unfold State.Fits; decide +kernel⟩

/-- X5 and X6. -/
theorem witness_DrawIndexAutoStagesAndNotifies :
    (started [0xC0012D00#32, 3#32, 2#32]).params.WellFormed ∧
      (started [0xC0012D00#32, 3#32, 2#32]).Fits (.drawIndexAuto 2#14) ∧
      (started [0xC0012D00#32, 3#32, 2#32]).PayloadAdmitted 2 ∧
      (started [0xC0002D00#32, 3#32]).Fits (.drawIndexAuto 1#14) :=
  ⟨by decide, by unfold State.Fits; decide +kernel, admitted_of (by decide +kernel),
    by unfold State.Fits; decide +kernel⟩

/-- A draw of each kind that completes, one that faults, and a packet that is no draw. -/
theorem witness_DrawsNotifyExactlyOnce :
    (∃ t, exec (.drawIndex2 5#14) (started [0xC0042700#32, 0x24#32, 0x1000#32, 0#32, 36#32, 2#32]) = .next t) ∧
      (∃ t, exec (.drawIndexAuto 2#14) (started [0xC0012D00#32, 3#32, 2#32]) = .next t) ∧
      (∃ t, exec (.drawIndexAuto 1#14) (started [0xC0002D00#32, 3#32]) = .next t) ∧
      (∃ t, exec (.nop 0#14) (started [0xFFFF1000#32]) = .next t) ∧ (started [0xFFFF1000#32]).phase ≠ .faulted :=
  ⟨next_of_goesOn (by decide +kernel), next_of_goesOn (by decide +kernel), next_of_goesOn (by decide +kernel),
    next_of_goesOn (by decide +kernel), by decide⟩

/-- A stream of one EVENT_WRITE_EOP with these DW2 to DW5. -/
def eopStream (w2 w3 w4 w5 : Word) : State := started [0xC0044700#32, 0#32, w2, w3, w4, w5]

/-- E10; E1 and E2 (`DATA_SEL` 0 and 3) and E3 (7); E6 and E7; a 4-byte target on the stream's first and on its last bytes
(E8 among them); an 8-byte target that only its upper half puts in the stream (E14). -/
theorem witness_EopChecksBeforeTheWriteBack :
    (started [0xC0034700#32, 0#32, 0x2000#32, 0x20000000#32, 1#32]).Fits (.eventWriteEop 4#14) ∧
      (((eopStream 0x2000#32 0#32 1#32 0#32).admits 0x1008 4 = true ∧
          (eopStream 0x2000#32 0#32 1#32 0#32).admits 0x100C 4 = true) ∧
        ([0x00000000#32, 0x62000000#32, 0xE0000000#32].all fun w3 =>
          decide (((eopStream 0x2000#32 w3 1#32 0#32).packetWord 3).toNat / 2 ^ 29 ∉ [1, 2])) = true) ∧
      (((eopStream 0x2002#32 0x20000000#32 1#32 0#32).packetWord 3).toNat / 2 ^ 29 = 1 ∧
        ((eopStream 0x2002#32 0x20000000#32 1#32 0#32).packetWord 2).toNat % 4 ≠ 0) ∧
      (((eopStream 0x2004#32 0x40000000#32 1#32 0#32).packetWord 3).toNat / 2 ^ 29 = 2 ∧
        ((eopStream 0x2004#32 0x40000000#32 1#32 0#32).packetWord 2).toNat % 8 ≠ 0) ∧
      ([0x1000#32, 0x1010#32, 0x1014#32].all fun w2 =>
        decide (((eopStream w2 0x20000000#32 1#32 0#32).packetWord 2).toNat % 4 = 0 ∧
          0x1000 ≤ ((eopStream w2 0x20000000#32 1#32 0#32).packetWord 2).toNat ∧
          ((eopStream w2 0x20000000#32 1#32 0#32).packetWord 2).toNat < 0x1000 + 24)) = true ∧
      (((startedAt 0x1004 [0xC0044700#32, 0#32, 0x1000#32, 0x40000000#32, 1#32, 0#32]).packetWord 2).toNat = 0x1000 ∧
        ((startedAt 0x1004 [0xC0044700#32, 0#32, 0x1000#32, 0x40000000#32, 1#32, 0#32]).packetWord 3).toNat / 2 ^ 29 = 2 ∧
        (startedAt 0x1004 [0xC0044700#32, 0#32, 0x1000#32, 0x40000000#32, 1#32, 0#32]).streamBase.toNat = 0x1004) ∧
      (eopStream 0x1000#32 0x20000000#32 1#32 0#32).Fits (.eventWriteEop 5#14) :=
  ⟨by unfold State.Fits; decide +kernel,
    ⟨by decide +kernel, by decide +kernel⟩, by decide +kernel, by decide +kernel, by decide +kernel,
    by decide +kernel, by unfold State.Fits; decide +kernel⟩

/-- E9: a 4-byte write-back right after the stream, with any `INT_SEL` and sink; L1-7, E4 and L1-8 differ in these. -/
theorem eopReady_four (sel : BitVec 2) (sink : Bool) :
    EopReady { eopStream 0x1018#32 (eopControl 0x1018#64 1#3 sel) 7#32 0#32 with sinkRegistered := sink } 5#14 0x1018 4 7
      (.data32 7#32) := by
  have h : sel = 0#2 ∨ sel = 1#2 ∨ sel = 2#2 ∨ sel = 3#2 := by revert sel; decide
  rcases h with rfl | rfl | rfl | rfl <;> cases sink <;>
    exact
      { words := by decide
        fits := by unfold State.Fits; decide +kernel
        addressLow := by decide +kernel
        control := by decide +kernel
        select := .inl (by decide +kernel)
        address := by decide +kernel
        aligned := by decide
        clear := .inr (by decide +kernel)
        dataLow := by decide +kernel
        value := .inl (by decide +kernel)
        target := by decide +kernel }

/-- E15: an 8-byte write-back that ends where the stream begins, and whose `P(1)`, which is not read, need not be valid
memory. -/
theorem eopReady_eight :
    EopReady (withHole (eopStream 0x0FF8#32 0x40000000#32 0x42#32 0#32) 0x1004 4) 5#14 0xFF8 8 0x42
      (.data64 0x42#64) where
  words := by decide
  fits := by unfold State.Fits; decide +kernel
  addressLow := by decide +kernel
  control := by decide +kernel
  select := .inr (by decide +kernel)
  address := by decide +kernel
  aligned := by decide
  clear := .inl (by decide +kernel)
  dataLow := by decide +kernel
  value := .inr (by decide +kernel)
  target := by decide +kernel

/-- E15 again, its last byte (0xFFF) or its `P(4)` or `P(5)` not valid memory: it passes its checks. -/
theorem eopChecked_eight (base : Nat) (h : base ∈ [0xFFF, 0x1010, 0x1014]) :
    EopChecked (withHole (eopStream 0x0FF8#32 0x40000000#32 0x42#32 0#32) base 1) 5#14 0xFF8 8 := by
  simp only [List.mem_cons, List.not_mem_nil, or_false] at h
  rcases h with rfl | rfl | rfl <;>
    exact
      { words := by decide
        fits := by unfold State.Fits; decide +kernel
        addressLow := by decide +kernel
        control := by decide +kernel
        select := .inr (by decide +kernel)
        address := by decide +kernel
        aligned := by decide
        clear := .inl (by decide +kernel) }

/-- The header; each last payload word that the register, index and draw packets read; a SETREG data word; `P(3)` and
`P(2)` of EVENT_WRITE_EOP. -/
theorem witness_UnadmittedAccessesAreStuck :
    (withHole (started [0xC0002A00#32, 1#32]) 0x1003 1).admits 0x1000 4 = false ∧
      ((withHole (started [0xC0002A00#32, 1#32]) 0x1004 1).Fits (.indexType 1#14) ∧
        (withHole (started [0xC0002A00#32, 1#32]) 0x1004 1).PayloadAdmitted 0 ∧
        (withHole (started [0xC0002A00#32, 1#32]) 0x1004 1).admits 0x1004 4 = false) ∧
      ((withHole (started [0xC0042700#32, 1#32, 2#32, 3#32, 4#32, 5#32]) 0x1017 1).Fits (.drawIndex2 5#14) ∧
        (withHole (started [0xC0042700#32, 1#32, 2#32, 3#32, 4#32, 5#32]) 0x1017 1).PayloadAdmitted 4 ∧
        (withHole (started [0xC0042700#32, 1#32, 2#32, 3#32, 4#32, 5#32]) 0x1017 1).admits 0x1014 4 = false) ∧
      ((withHole (started [0xC0012D00#32, 3#32, 2#32]) 0x1008 1).Fits (.drawIndexAuto 2#14) ∧
        (withHole (started [0xC0012D00#32, 3#32, 2#32]) 0x1008 1).PayloadAdmitted 1 ∧
        (withHole (started [0xC0012D00#32, 3#32, 2#32]) 0x1008 1).admits 0x1008 4 = false) ∧
      ((withHole (started (assembleSetReg .sh 0x3FF#32 [0xA5#32])) 0x1008 1).Fits (.setShReg 2#14) ∧
        ((withHole (started (assembleSetReg .sh 0x3FF#32 [0xA5#32])) 0x1008 1).packetWord 1).toNat % 2 ^ 16 + (2 - 1) =
          0x400 ∧
        (withHole (started (assembleSetReg .sh 0x3FF#32 [0xA5#32])) 0x1008 1).PayloadAdmitted 1 ∧
        (withHole (started (assembleSetReg .sh 0x3FF#32 [0xA5#32])) 0x1008 1).admits 0x1008 4 = false) ∧
      ((withHole (started (wb32 0x2000#64 1#32)) 0x100C 1).Fits (.eventWriteEop 5#14) ∧
        (withHole (started (wb32 0x2000#64 1#32)) 0x100C 1).admits 0x100C 4 = false ∧
        (withHole (started (wb32 0x2000#64 1#32)) 0x1008 1).admits 0x100C 4 = true ∧
        (withHole (started (wb32 0x2000#64 1#32)) 0x1008 1).admits 0x1008 4 = false) :=
  ⟨by decide +kernel,
    ⟨by unfold State.Fits; decide +kernel, admitted_of (by decide +kernel), by decide +kernel⟩,
    ⟨by unfold State.Fits; decide +kernel, admitted_of (by decide +kernel), by decide +kernel⟩,
    ⟨by unfold State.Fits; decide +kernel, admitted_of (by decide +kernel), by decide +kernel⟩,
    ⟨by unfold State.Fits; decide +kernel, by decide +kernel, admitted_of (by decide +kernel), by decide +kernel⟩,
    by unfold State.Fits; decide +kernel, by decide +kernel, by decide +kernel, by decide +kernel⟩

/-- `P(4)`, `P(5)` and the target of EVENT_WRITE_EOP, past its checks; the target lies below the stream. -/
theorem witness_UnadmittedAccessesAreStuck_eop :
    EopChecked (withHole (eopStream 0x0FF8#32 0x40000000#32 0x42#32 0#32) 0x1010 1) 5#14 0xFF8 8 ∧
      (withHole (eopStream 0x0FF8#32 0x40000000#32 0x42#32 0#32) 0x1010 1).admits 0x1010 4 = false ∧
      EopChecked (withHole (eopStream 0x0FF8#32 0x40000000#32 0x42#32 0#32) 0x1014 1) 5#14 0xFF8 8 ∧
      (withHole (eopStream 0x0FF8#32 0x40000000#32 0x42#32 0#32) 0x1014 1).admits 0x1010 4 = true ∧
      (withHole (eopStream 0x0FF8#32 0x40000000#32 0x42#32 0#32) 0x1014 1).admits 0x1014 4 = false ∧
      EopLoaded (withHole (eopStream 0x0FF8#32 0x40000000#32 0x42#32 0#32) 0xFFF 1) 5#14 0xFF8 8 0x42
        (.data64 0x42#64) ∧
      (withHole (eopStream 0x0FF8#32 0x40000000#32 0x42#32 0#32) 0xFFF 1).admits 0xFF8 8 = false :=
  ⟨eopChecked_eight _ (by decide), by decide +kernel, eopChecked_eight _ (by decide), by decide +kernel,
    by decide +kernel,
    { toEopChecked := eopChecked_eight _ (by decide)
      dataLow := by decide +kernel
      value := .inr (by decide +kernel) },
    by decide +kernel⟩

/-- `INT_SEL` 0, and 2 with a sink. -/
theorem witness_EopWritesBackAndInterrupts :
    EopReady (withHole (eopStream 0x0FF8#32 0x40000000#32 0x42#32 0#32) 0x1004 4) 5#14 0xFF8 8 0x42 (.data64 0x42#64) ∧
      ((eopStream 0x0FF8#32 0x40000000#32 0x42#32 0#32).packetWord 3).toNat / 2 ^ 24 % 4 = 0 ∧
      EopReady { eopStream 0x1018#32 (eopControl 0x1018#64 1#3 2#2) 7#32 0#32 with sinkRegistered := true } 5#14 0x1018 4
        7 (.data32 7#32) ∧
      ((eopStream 0x1018#32 (eopControl 0x1018#64 1#3 2#2) 7#32 0#32).packetWord 3).toNat / 2 ^ 24 % 4 = 2 :=
  ⟨eopReady_eight, by decide +kernel, eopReady_four 2#2 true, by decide +kernel⟩

/-- `INT_SEL` 0, 1 and 3, and 2 with no sink. -/
theorem witness_EopInterruptSelectComesAfterTheWriteBack : ∀ sel ∈ [0#2, 1#2, 2#2, 3#2],
    EopReady { eopStream 0x1018#32 (eopControl 0x1018#64 1#3 sel) 7#32 0#32 with sinkRegistered := false } 5#14 0x1018 4 7
        (.data32 7#32) ∧
      ((eopStream 0x1018#32 (eopControl 0x1018#64 1#3 sel) 7#32 0#32).packetWord 3).toNat / 2 ^ 24 % 4 = sel.toNat := by
  intro sel h
  refine ⟨eopReady_four sel false, ?_⟩
  revert sel
  decide +kernel

/-- A step that is no EVENT_WRITE_EOP, and one that writes no register. -/
theorem witness_OnlyTheirHandlersWrite :
    (∃ t, step fourPackets = .next t) ∧ decodeHeader fourPackets.headerWord = .ok (.setShReg 2#14) ∧
      (∃ t, step oneIrq = .next t) ∧ decodeHeader oneIrq.headerWord = .ok (.eventWriteEop 5#14) :=
  ⟨next_of_goesOn (by decide +kernel), by decide +kernel, next_of_goesOn (by decide +kernel), by decide +kernel⟩

/-- The last byte of the stream. -/
theorem witness_StepsLeaveTheStreamAlone :
    (∃ t, step oneIrq = .next t) ∧ oneIrq.streamBase.toNat ≤ 0x1017 ∧
      0x1017 < oneIrq.streamBase.toNat + oneIrq.streamLen.toNat :=
  ⟨next_of_goesOn (by decide +kernel), by decide +kernel, by decide +kernel⟩

/-- A step that completes and one that faults. -/
theorem witness_StepsKeepTheControlState :
    leaves (step fourPackets) (fun t => t.phase != .faulted) = true ∧
      leaves (step (started [0#32])) (fun t => t.phase == .faulted) = true := by decide +kernel

theorem witness_InterruptsComeFromEopOnly :
    leaves (step oneIrq) (fun t => t.phase != .faulted && t.trace.countP Event.isIrq == 1) = true ∧
      decodeHeader oneIrq.headerWord = .ok (.eventWriteEop 5#14) ∧
      (oneIrq.packetWord 3).toNat / 2 ^ 24 % 4 = 2 := by decide +kernel

/-- Two states whose registers differ, one that goes on past a draw and one with no step. -/
theorem witness_RegistersDoNotSteerTheDecoder :
    AgreeButRegs (started [0xC0012D00#32, 3#32, 2#32])
        { started [0xC0012D00#32, 3#32, 2#32] with rf := [(0xA29F, 1#32)] } ∧
      (∃ t, step (started [0xC0012D00#32, 3#32, 2#32]) = .next t) ∧
      AgreeButRegs { State.reset with trace := [.drawNotify .auto ⟨1#32, 1#32, 1#64, 1#32, 1#32⟩] }
        { State.reset with rf := [(0, 1#32)], trace := [.drawNotify .auto ⟨2#32, 2#32, 2#64, 2#32, 2#32⟩] } ∧
      step { State.reset with trace := [.drawNotify .auto ⟨1#32, 1#32, 1#64, 1#32, 1#32⟩] } = .fault .noStep :=
  ⟨⟨rfl, rfl⟩, next_of_goesOn (by decide +kernel), ⟨rfl, rfl⟩, rfl⟩

/-- Halted; scanning; each bad shape; the empty stream; a stream that ends at 2^64. -/
theorem witness_StartLatchesAndChecksTheStream :
    faultedState.halted = true ∧ fourPackets.phase = .scanning ∧
      (State.reset.halted = false ∧ State.reset.phase ≠ .scanning) ∧
      (0x1002#64 : DWord).toNat % 4 ≠ 0 ∧ (6#32 : Word).toNat % 4 ≠ 0 ∧
      2 ^ 64 < (0xFFFFFFFFFFFFFFFC#64 : DWord).toNat + (8#32 : Word).toNat ∧
      (0xFFFFFFFFFFFFFFFC#64 : DWord).toNat + (4#32 : Word).toNat ≤ 2 ^ 64 := by decide

theorem witness_SinkIsRegisteredOnce :
    oneIrq.sinkRegistered = true ∧ fourPackets.phase = .scanning ∧ State.reset.sinkRegistered = false ∧
      State.reset.phase ≠ .scanning := by decide

theorem witness_FaultedDecoderStaysHalted :
    faultedState.Inv ∧ faultedState.phase = .faulted ∧ faultedState.sinkRegistered = false :=
  ⟨faultedState_inv, rfl, rfl⟩

theorem witness_StepsKeepTheInvariant : fourPackets.Inv ∧ ∃ t, step fourPackets = .next t :=
  ⟨fourPackets_inv, next_of_goesOn (by decide +kernel)⟩

theorem reset_inv : State.reset.Inv := inv_of (by decide) (by decide) (by decide) (by decide) (by decide) (by decide)

/-- `Start`, `RegisterSink` and a host store that are accepted. -/
theorem witness_HostTransactionsKeepTheInvariant :
    State.reset.Inv ∧ (∃ t, State.reset.start 0x1000#64 24#32 = .accepted t ∧ (t.phase == .scanning) = true) ∧
      (∃ t, State.reset.registerSink = .accepted t ∧ t.sinkRegistered = true) ∧
      ∃ t, State.reset.hostStore 0xFFFFFFFFFFFFFFFF [1#8] = .accepted t ∧
        (t.mem == [(0xFFFFFFFFFFFFFFFF, 1#8)]) = true :=
  ⟨reset_inv, accepted_of_accepts (by decide +kernel), accepted_of_accepts (by decide +kernel),
    accepted_of_accepts (by decide +kernel)⟩

theorem witness_ResetHasTheInvariant :
    Params.standard.WellFormed ∧ Memory.wf [(0, 1#8), (2 ^ 64 - 1, 0x11#8)] ∧
      ∀ c ∈ ([(0, 1#8), (2 ^ 64 - 1, 0x11#8)] : Memory), c.1 < 2 ^ 64 := by decide

/-- Reset itself, and a decoder that `Start` has faulted (D15). -/
theorem witness_AtMostOneFaultPerReset :
    Reachable State.reset ∧ ∃ t, Reachable t ∧ t.halted = true :=
  have h0 : Reachable State.reset := .reset Params.standard [] (by decide) (by decide) (by simp)
  have ⟨t, ht, hh⟩ := accepted_of_accepts (r := State.reset.start 0x1000#64 6#32) (p := State.halted) (by decide +kernel)
  ⟨h0, t, .start State.reset t 0x1000#64 6#32 h0 ht, hh⟩

theorem witness_IrqsFollowTheirWriteBack :
    IrqsConfirmed oneIrq.trace ∧ ∃ t, step oneIrq = .next t :=
  ⟨by intro pre post h; simp [oneIrq, withSink, started, startedAt, State.reset] at h,
    next_of_goesOn (by decide +kernel)⟩

/-- L1-10: four packets of 12, 4, 8 and 24 bytes tile a stream of 48. -/
theorem witness_CompletedStreamsAreTiled :
    fourPackets.phase = .scanning ∧ fourPackets.cursor = 0#32 ∧
      leaves (Host.Core.run Sys2Proof.core 4 fourPackets) (fun t => t.phase == .done &&
        t.trace.countP Event.isPacket == 4 && tiledFrom 0 t.trace == some 48) = true := by decide +kernel

theorem witness_StreamsTerminate :
    fourPackets.Inv ∧ fourPackets.params.holes = [] ∧ fourPackets.phase = .scanning := ⟨fourPackets_inv, rfl, rfl⟩

/-- An accepted `Start`, and a state that has its first packet before it. -/
theorem witness_StepsKeepTheTiling :
    (∃ t, State.reset.start 0x1000#64 24#32 = .accepted t ∧ (t.phase == .scanning) = true) ∧
      fourPackets.TiledSince [] ∧ ∃ t, step fourPackets = .next t :=
  ⟨accepted_of_accepts (by decide +kernel), fun _ => ⟨[], rfl, rfl⟩, next_of_goesOn (by decide +kernel)⟩

theorem witness_StepsMakeProgress :
    fourPackets.Inv ∧ fourPackets.params.holes = [] ∧ fourPackets.phase = .scanning := ⟨fourPackets_inv, rfl, rfl⟩

end Sys2Proof.Tests
end

/-! SUPPORT. The register-block writes of 41_register_writes.md as a step on the register file: where they write, and
that they write nothing when they fault (10_state.md R23). -/

namespace Sys2Proof.Machine

/-- A word that a write changes lies in the range written. -/
theorem RegFile.mem_range_of_read_write_ne {rf : RegFile} {i j : Nat} {ws : List Word}
    (h : (rf.write i ws).read j ≠ rf.read j) : i ≤ j ∧ j < i + ws.length := by
  by_contra hout
  rw [RegFile.read_write, dif_neg hout] at h
  exact h rfl

@[simp] theorem setRegData_emitPacket (s : State) (i : Instr) (count : BitVec 14) :
    setRegData (s.emitPacket i) count = setRegData s count := rfl

/-- All that a register-block write can do to the register file: fault and leave it, or copy its data words to a range
inside its region. -/
theorem runPacket_setRegHandler_rf_cases (i : Instr) (r : Region) (count : BitVec 14) (s t : State)
    (h : runPacket i (setRegHandler r count) s = .next t) :
    (t.phase = .faulted ∧ t.rf = s.rf) ∨
      ((regOffset (s.packetWord 1)).toNat + (count.toNat - 1) ≤ regionCap s.params r ∧
        t.rf = s.rf.write (regionBase s.params r + (regOffset (s.packetWord 1)).toNat) (setRegData s count)) := by
  have hcases := setRegHandler_cases r count (s.emitPacket i)
  rcases runPacket_cases i (setRegHandler r count) s t h with
    ⟨_, rfl⟩ | ⟨_, u, hu, rfl⟩ | ⟨_, u, f, v, hu, rfl⟩
  case inl => exact .inl ⟨rfl, rfl⟩
  case inr.inl =>
    rcases hcases with ⟨f, v, hr⟩ | ⟨f, hr⟩ | ⟨hb, hr⟩
    · simp [hr] at hu
    · simp [hr] at hu
    · obtain rfl : _ = u := Except.ok.inj (hr.symm.trans hu)
      exact .inr ⟨by simpa using hb, by simp⟩
  case inr.inr =>
    rcases hcases with ⟨f, v, hr⟩ | ⟨f, hr⟩ | ⟨_, hr⟩
    · obtain ⟨rfl, -, -⟩ : s.emitPacket i = u ∧ _ ∧ _ := by simpa [hr] using hu
      exact .inl ⟨rfl, rfl⟩
    · simp [hr] at hu
    · simp [hr] at hu

/-- The containment of R23, for one region: a changed word lies in the region, and a range that leaves the region
faults and changes no word. -/
theorem runPacket_setRegHandler_stays_in_region (i : Instr) (r : Region) (count : BitVec 14) (s t : State)
    (h : runPacket i (setRegHandler r count) s = .next t) :
    (∀ j, t.rf.read j ≠ s.rf.read j →
        regionBase s.params r ≤ j ∧ j < regionBase s.params r + regionCap s.params r) ∧
      (regionCap s.params r < (s.packetWord 1).toNat % 2 ^ 16 + (count.toNat - 1) →
        t.phase = .faulted ∧ SameRegs s t) := by
  rcases runPacket_setRegHandler_rf_cases i r count s t h with ⟨hphase, hrf⟩ | ⟨hfits, hrf⟩
  · exact ⟨fun j hj => absurd (by rw [hrf]) hj, fun _ => ⟨hphase, fun j => by rw [hrf]⟩⟩
  · rw [regOffset_toNat] at hfits
    refine ⟨fun j hj => ?_, fun hout => absurd hfits (Nat.not_le.mpr hout)⟩
    rw [hrf] at hj
    have hrange := RegFile.mem_range_of_read_write_ne hj
    rw [setRegData_length, regOffset_toNat] at hrange
    omega

/-- Settles O16: a packet of each of the three rows is a register-block write to its own region. -/
theorem registerBlockWritesStayInTheirRegion : Obligations.RegisterBlockWritesStayInTheirRegion := by
  unfold Obligations.RegisterBlockWritesStayInTheirRegion
  intro s t count row hrow h
  simp only [List.mem_cons, List.not_mem_nil, or_false] at hrow
  rcases hrow with rfl | rfl | rfl
  · exact runPacket_setRegHandler_stays_in_region _ .ctx count s t h
  · exact runPacket_setRegHandler_stays_in_region _ .sh count s t h
  · exact runPacket_setRegHandler_stays_in_region _ .uc count s t h

end Sys2Proof.Machine

/-! SUPPORT. The mask test of 30_encoding.md R87 as a test of what the decoder answers. -/

namespace Sys2Proof

/-- The header parse answers a packet exactly when the three fields of the header are the packet's. -/
theorem decodeHeader_eq_ok_iff (hdr : Word) (i : Instr) :
    decodeHeader hdr = .ok i ↔
      headerType hdr = 3#2 ∧ headerOpcode hdr = i.opcode ∧ headerCount hdr = i.count := by
  refine ⟨decodeHeader_ok hdr i, ?_⟩
  rintro ⟨htype, hop, hcount⟩
  have hroute : route (headerOpcode hdr) = some i.handler := hop ▸ route_opcode i.handler
  simp only [decodeHeader_type3 hdr htype, hroute, hcount, Instr.instr_handler]

/-- A row's match of R87: type 3 and the handler's opcode, every other bit 0. -/
def Handler.headerMatch (h : Handler) : Word := 0xC0000000#32 ||| (h.opcode.setWidth 32 <<< 8)

/-- R87 for one handler id: its mask test selects its packet, with the count of the header. -/
theorem headerMatch_iff_decodeHeader (hdr : Word) (h : Handler) :
    hdr &&& 0xC000FF00#32 = h.headerMatch ↔ decodeHeader hdr = .ok (h.instr (headerCount hdr)) := by
  rw [Handler.headerMatch, headerMask_iff, decodeHeader_eq_ok_iff]
  simp [Instr.opcode]

/-- Settles O2: the rows are those of the model's opcode table, each the match of its handler id beside the packets of
that id. -/
theorem headersSelectTheirRow : Obligations.HeadersSelectTheirRow := by
  unfold Obligations.HeadersSelectTheirRow
  intro hdr row hrow
  change row ∈ opcodeTable.map fun r => (r.handler.headerMatch, r.handler.instr) at hrow
  obtain ⟨r, -, rfl⟩ := List.mem_map.mp hrow
  have hcount : BitVec.ofNat 14 ((hdr.toNat / 2 ^ 16 % 2 ^ 14 + 1) % 2 ^ 14) = headerCount hdr := by
    rw [headerCount_eq]
    exact BitVec.eq_of_toNat_eq (by simp)
  rw [hcount]
  exact headerMatch_iff_decodeHeader hdr r.handler

end Sys2Proof

/-! SUPPORT. The faults that 40_dispatcher.md raises before any handler runs, each a fault entered with no event before it
that changes no register and no byte: a header that is no packet (R104, R107) and a packet past the end (R108). -/

namespace Sys2Proof

/-- `Route(op) = none` exactly for the opcodes that no row of R106 lists. -/
theorem route_eq_none_iff (op : BitVec 8) :
    route op = none ↔ op.toNat ∉ opcodeTable.map fun r => r.opcode.toNat := by
  simp only [route, Option.map_eq_none_iff, List.find?_eq_none, beq_iff_eq, List.mem_map, not_exists, not_and,
    BitVec.toNat_inj]

/-- A type-3 header with an opcode that is not listed is rejected with its opcode and count (R107). -/
theorem decodeHeader_unknown (hdr : Word) (htype : headerType hdr = 3#2) (hroute : route (headerOpcode hdr) = none) :
    decodeHeader hdr = .error (.unknownOpcode (headerOpcode hdr) (headerCount hdr)) := by
  simp only [decodeHeader_type3 hdr htype, hroute]

end Sys2Proof

namespace Sys2Proof.Machine

/-- A fault raised with no effect before it: entered as R225 says, and no register and no byte is changed. -/
theorem raise_enters_fault (s : State) (f : FaultCause) (hdr : Word) (v : DWord) (n : BitVec 14) :
    FaultEntered s [] f hdr v n (s.raise f hdr v n) ∧ SameRegs s (s.raise f hdr v n) ∧
      SameMem s (s.raise f hdr v n) :=
  ⟨faultEntered_raise s s [] f hdr v n (by rw [List.append_nil]), fun _ => rfl, fun _ => rfl⟩

/-- A scanning decoder whose admitted header is no packet steps to the fault of its rejection. -/
theorem step_of_reject (s : State) (r : HeaderReject) (hp : s.phase = .scanning)
    (ha : s.admits (s.packetAddr 0) 4 = true) (hr : decodeHeader s.headerWord = .error r) :
    step s = .next (s.raiseReject s.headerWord r) := by
  simp only [step, fetchHeader_of s hp ha, hr]

/-- Settles O10: the 14 numbers are the opcodes of the model's table, so routing answers `none`. The rejection comes
before the overrun check, so no premise on the packet's size is used. -/
theorem unknownOpcodesFault : Obligations.UnknownOpcodesFault := by
  unfold Obligations.UnknownOpcodesFault
  intro s hp ha htype hop
  have hroute : route (headerOpcode s.headerWord) = none := by
    rw [route_eq_none_iff, headerOpcode_toNat]
    exact hop
  have hreject := decodeHeader_unknown s.headerWord ((headerType_eq_three _).mpr htype) hroute
  refine ⟨_, step_of_reject s _ hp ha hreject, ?_⟩
  rw [← headerOpcode_toNat, ← headerCount_eq, BitVec.ofNat_toNat]
  exact raise_enters_fault s _ _ _ _

/-- Settles O9: a header whose type is not 3 is rejected with its type, before any count is computed. -/
theorem otherFamiliesFault : Obligations.OtherFamiliesFault := by
  unfold Obligations.OtherFamiliesFault
  intro s hp ha htype
  have hreject := decodeHeader_other s.headerWord (mt (headerType_eq_three _).mp htype)
  refine ⟨_, step_of_reject s _ hp ha hreject, ?_⟩
  rw [← headerType_toNat, BitVec.ofNat_toNat]
  exact raise_enters_fault s _ _ _ _

/-- Settles O11: the premise is the overrun check, which every packet makes before its `Packet` event. -/
theorem overrunningPacketsFault : Obligations.OverrunningPacketsFault := by
  unfold Obligations.OverrunningPacketsFault
  intro i s h
  exact ⟨_, exec_overrun i s ((overruns_eq_true s i.count).mpr h), raise_enters_fault s _ _ _ _⟩

end Sys2Proof.Machine

/-! SUPPORT. What `Start` answers (40_dispatcher.md R100), one equation per branch. -/

namespace Sys2Proof.Machine

theorem streamShapeOk_eq_true (b : DWord) (l : BitVec 32) :
    streamShapeOk b l = true ↔ b.toNat % 4 = 0 ∧ l.toNat % 4 = 0 ∧ b.toNat + l.toNat ≤ 2 ^ 64 := by
  rw [streamShapeOk, decide_eq_true_iff]

theorem streamShapeOk_eq_false (b : DWord) (l : BitVec 32) :
    streamShapeOk b l = false ↔ b.toNat % 4 ≠ 0 ∨ l.toNat % 4 ≠ 0 ∨ 2 ^ 64 < b.toNat + l.toNat := by
  rw [streamShapeOk, decide_eq_false_iff_not, not_and_or, not_and_or, not_le]

theorem start_refused (s : State) (b : DWord) (l : BitVec 32) (h : s.halted = true ∨ s.phase = .scanning) :
    s.start b l = .refused := if_pos h

/-- A decoder that is neither halted nor scanning accepts every `Start`: what follows depends on the stream alone. -/
theorem start_accepted (s : State) (b : DWord) (l : BitVec 32) (hh : s.halted = false) (hp : s.phase ≠ .scanning) :
    s.start b l = .accepted
      (if streamShapeOk b l then
        if l = 0#32 then { s.latchStream b l with phase := .done }.emit (.streamDone 0#32)
        else { s.latchStream b l with phase := .scanning }
      else (s.latchStream b l).raise .streamShapeInvalid 0#32 (l.setWidth 64) 0#14) := by
  have hready : ¬ (s.halted = true ∨ s.phase = .scanning) := by simp [hh, hp]
  rw [State.start, if_neg hready, apply_ite HostReply.accepted, apply_ite HostReply.accepted]

theorem start_badShape (s : State) (b : DWord) (l : BitVec 32) (hh : s.halted = false) (hp : s.phase ≠ .scanning)
    (hshape : streamShapeOk b l = false) :
    s.start b l = .accepted ((s.latchStream b l).raise .streamShapeInvalid 0#32 (l.setWidth 64) 0#14) := by
  simp only [start_accepted s b l hh hp, hshape, Bool.false_eq_true, if_false]

theorem start_empty (s : State) (b : DWord) (hh : s.halted = false) (hp : s.phase ≠ .scanning)
    (hshape : streamShapeOk b 0#32 = true) :
    s.start b 0#32 = .accepted ({ s.latchStream b 0#32 with phase := .done }.emit (.streamDone 0#32)) := by
  simp only [start_accepted s b 0#32 hh hp, hshape, if_true]

theorem start_scans (s : State) (b : DWord) (l : BitVec 32) (hh : s.halted = false) (hp : s.phase ≠ .scanning)
    (hshape : streamShapeOk b l = true) (hl : l ≠ 0#32) :
    s.start b l = .accepted { s.latchStream b l with phase := .scanning } := by
  simp only [start_accepted s b l hh hp, hshape, if_true, if_neg hl]

/-- Settles O31: a clause per branch of `Start`. -/
theorem startLatchesAndChecksTheStream : Obligations.StartLatchesAndChecksTheStream := by
  unfold Obligations.StartLatchesAndChecksTheStream
  intro s b l
  refine ⟨start_refused s b l, fun hh hp => ⟨fun hbad => ?_, fun hb hl hsum => ?_⟩⟩
  · refine ⟨_, start_badShape s b l hh hp ((streamShapeOk_eq_false b l).mpr hbad), ?_, rfl, rfl⟩
    rw [BitVec.ofNat_toNat]
    exact (raise_enters_fault (s.latchStream b l) _ _ _ _).1
  · have hshape := (streamShapeOk_eq_true b l).mpr ⟨hb, hl, hsum⟩
    refine ⟨?_, start_scans s b l hh hp hshape⟩
    rintro rfl
    exact start_empty s b hh hp hshape

end Sys2Proof.Machine

/-! SUPPORT. The three outcomes of a register-block write (41_register_writes.md R130, R131), said once for every
region: the whole copy, the malformed packet and the range that leaves the region. The packet of region `r` is
`(Handler.setReg r).instr count`. -/

namespace Sys2Proof.Machine

/-! ## Reads of a block that was written -/

/-- Word `k` of a written block. -/
theorem RegFile.read_write_add (rf : RegFile) (i : Nat) (ws : List Word) (k : Nat) (hk : k < ws.length) :
    (rf.write i ws).read (i + k) = ws[k] := by
  rw [RegFile.read_write, dif_pos ⟨Nat.le_add_right i k, Nat.add_lt_add_left hk i⟩]
  simp only [Nat.add_sub_cancel_left]

/-- A write leaves every word outside its range alone: `RegFile.mem_range_of_read_write_ne`, turned round. -/
theorem RegFile.read_write_outside (rf : RegFile) (i : Nat) (ws : List Word) (j : Nat)
    (hj : j < i ∨ i + ws.length ≤ j) : (rf.write i ws).read j = rf.read j := by
  by_contra hne
  have hrange := RegFile.mem_range_of_read_write_ne hne
  omega

/-- Each data word of a SETREG packet is read back where the copy put it (R130, R137). -/
theorem read_write_setRegData (rf : RegFile) (i : Nat) (s : State) (count : BitVec 14) (k : Nat)
    (hk : k < count.toNat - 1) : (rf.write i (setRegData s count)).read (i + k) = s.packetWord (2 + k) := by
  rw [RegFile.read_write_add rf i _ k (by rwa [setRegData_length])]
  simp only [setRegData, List.getElem_map, List.getElem_range]

/-! ## The outcomes -/

theorem exec_setReg (r : Region) (count : BitVec 14) (s : State) :
    exec ((Handler.setReg r).instr count) s =
      runPacket ((Handler.setReg r).instr count) (setRegHandler r count) s := by
  cases r <;> rfl

/-- The `Packet` event of a register-block write (R109). -/
theorem emitPacket_setReg_trace (r : Region) (count : BitVec 14) (s : State) :
    (s.emitPacket ((Handler.setReg r).instr count)).trace =
      s.trace ++ [.packet s.cursor (Handler.setReg r).opcode count (.setReg r)] := by
  simp [Instr.opcode]

theorem insideRegion_eq_true (p : Params) (r : Region) (off n : Nat) :
    insideRegion p r off n = true ↔ off + n ≤ regionCap p r := decide_eq_true_iff

theorem insideRegion_eq_false (p : Params) (r : Region) (off n : Nat) :
    insideRegion p r off n = false ↔ regionCap p r < off + n := by
  rw [insideRegion, decide_eq_false_iff_not, not_le]

/-- R130: a range inside the region, with all its payload admitted, is copied whole. -/
theorem exec_setReg_copies (r : Region) (count : BitVec 14) (s : State)
    (hfits : s.Fits ((Handler.setReg r).instr count)) (hcount : 1 ≤ count.toNat) (ha : s.PayloadAdmitted count.toNat)
    (hin : (s.packetWord 1).toNat % 2 ^ 16 + (count.toNat - 1) ≤ regionCap s.params r) :
    ∃ t, exec ((Handler.setReg r).instr count) s = .next t ∧
      Completed s count [.packet s.cursor (Handler.setReg r).opcode count (.setReg r)] t ∧ SameMem s t ∧
      t.rf = s.rf.write (regionBase s.params r + (s.packetWord 1).toNat % 2 ^ 16) (setRegData s count) := by
  rw [← regOffset_toNat] at hin ⊢
  have hhandler := setRegHandler_ok r count (s.emitPacket ((Handler.setReg r).instr count))
    ((hasWords_eq_true count 1).mpr hcount) (ha 1 le_rfl hcount) ((insideRegion_eq_true _ _ _ _).mpr hin)
    (fun k hk => ha (2 + k) (by omega) (by omega))
  obtain ⟨t, hexec, hdone, hrf, hmem⟩ := runPacket_completes _ _ s _ _ hfits hhandler
    (by rw [← emitPacket_setReg_trace]; rfl)
  rw [Handler.count_instr] at hdone
  exact ⟨t, (exec_setReg r count s).trans hexec, hdone, fun a => by rw [hmem]; rfl, hrf⟩

/-- A register-block write whose handler raises before it writes: the fault is entered after the `Packet` event, and no
register and no byte is changed (R131, R223). -/
theorem exec_setReg_raises (r : Region) (count : BitVec 14) (s : State) (f : FaultCause) (v : DWord)
    (hfits : s.Fits ((Handler.setReg r).instr count))
    (hraise : setRegHandler r count (s.emitPacket ((Handler.setReg r).instr count)) =
      .error (.raised (s.emitPacket ((Handler.setReg r).instr count)) f v)) :
    ∃ t, exec ((Handler.setReg r).instr count) s = .next t ∧
      FaultEntered s [.packet s.cursor (Handler.setReg r).opcode count (.setReg r)] f s.headerWord v count t ∧
      SameRegs s t ∧ SameMem s t := by
  obtain ⟨t, hexec, hfault, hrf, hmem⟩ := runPacket_faults _ _ s _ _ f v hfits hraise
    (by rw [← emitPacket_setReg_trace]; rfl)
  rw [Handler.count_instr] at hfault
  exact ⟨t, (exec_setReg r count s).trans hexec, hfault, fun j => by rw [hrf]; rfl, fun a => by rw [hmem]; rfl⟩

/-- R131: a range that leaves the region is found out before any data word is read, so only `P(1)` is asked for. -/
theorem exec_setReg_outside (r : Region) (count : BitVec 14) (s : State)
    (hfits : s.Fits ((Handler.setReg r).instr count)) (hcount : 1 ≤ count.toNat) (ha : s.PayloadAdmitted 1)
    (hout : regionCap s.params r < (s.packetWord 1).toNat % 2 ^ 16 + (count.toNat - 1)) :
    ∃ t, exec ((Handler.setReg r).instr count) s = .next t ∧
      FaultEntered s [.packet s.cursor (Handler.setReg r).opcode count (.setReg r)] .regionBoundsViolation s.headerWord
        (BitVec.ofNat 64 ((s.packetWord 1).toNat % 2 ^ 16)) count t ∧ SameRegs s t ∧ SameMem s t := by
  rw [← regOffset_toNat] at hout ⊢
  rw [BitVec.ofNat_toNat]
  exact exec_setReg_raises r count s _ _ hfits (setRegHandler_outside r count _
    ((hasWords_eq_true count 1).mpr hcount) (ha 1 le_rfl le_rfl) ((insideRegion_eq_false _ _ _ _).mpr hout))

/-- Settles O15: the three rows are one packet for each region, and its three clauses are the outcomes above. -/
theorem registerBlockWrites : Obligations.RegisterBlockWrites := by
  unfold Obligations.RegisterBlockWrites
  intro s count row hrow hfits
  change row ∈ [Region.ctx, .sh, .uc].map fun r =>
    ((Handler.setReg r).instr count, (Handler.setReg r).opcode, r, regionBase s.params r, regionCap s.params r) at hrow
  obtain ⟨r, -, rfl⟩ := List.mem_map.mp hrow
  refine ⟨fun hcount ha hin => ?copied, fun hzero => ?malformed, exec_setReg_outside r count s hfits⟩
  case copied =>
    obtain ⟨t, hexec, hdone, hmem, hrf⟩ := exec_setReg_copies r count s hfits hcount ha hin
    refine ⟨t, hexec, hdone, hmem, fun k hk => ?_, fun j hj => ?_⟩
    · rw [hrf, read_write_setRegData _ _ s count k hk]
    · rw [hrf, RegFile.read_write_outside _ _ _ j (by rwa [setRegData_length])]
  case malformed =>
    subst hzero
    exact exec_setReg_raises r 0#14 s _ _ hfits (setRegHandler_malformed r 0#14 _ rfl)

end Sys2Proof.Machine

/-! SUPPORT. The draw-state view over the register file (10_state.md R24): it holds the word that the register file
holds at a draw-state index, so a register-block write over that index changes it (41_register_writes.md R136). -/

namespace Sys2Proof.Machine

theorem indexBase_low (hi lo : Word) : (indexBase hi lo).toNat % 2 ^ 32 = lo.toNat := by
  rw [indexBase_eq_append, BitVec.toNat_append, ← Nat.shiftLeft_add_eq_or_of_lt lo.isLt, Nat.shiftLeft_eq,
    Nat.mul_add_mod_self_right, Nat.mod_eq_of_lt lo.isLt]

theorem indexBase_high (hi lo : Word) : (indexBase hi lo).toNat / 2 ^ 32 = hi.toNat := by
  have := lo.isLt
  rw [indexBase_eq_append, BitVec.toNat_append, ← Nat.shiftLeft_add_eq_or_of_lt lo.isLt, Nat.shiftLeft_eq]
  omega

/-- R24: the draw state `v` has `w` in the field that `ix` is the index of; nothing is said where `ix` is none of the
six indices. -/
structure Snapshot.HoldsAt (v : Snapshot) (p : Params) (ix : Nat) (w : Word) : Prop where
  maxIndexSize : ix = p.ixMaxSize → v.maxIndexSize = w
  indexType : ix = p.ixIndexType → v.indexType = w
  indexBaseLow : ix = p.ixBaseLo → v.indexBase.toNat % 2 ^ 32 = w.toNat
  indexBaseHigh : ix = p.ixBaseHi → v.indexBase.toNat / 2 ^ 32 = w.toNat
  drawInitiator : ix = p.ixDrawInitiator → v.drawInitiator = w
  numIndices : ix = p.ixNumIndices → v.numIndices = w

/-- The draw state is a view: at each index it holds the word of the register file. -/
theorem snapshot_holdsAt (t : State) (ix : Nat) : t.snapshot.HoldsAt t.params ix (t.rf.read ix) where
  maxIndexSize := by rintro rfl; rfl
  indexType := by rintro rfl; rfl
  indexBaseLow := by rintro rfl; exact indexBase_low _ _
  indexBaseHigh := by rintro rfl; exact indexBase_high _ _
  drawInitiator := by rintro rfl; rfl
  numIndices := by rintro rfl; rfl

/-- R136: after a register-block write inside its region, the draw state holds each data word at the index it was
written to. -/
theorem exec_setReg_reaches_snapshot (r : Region) (count : BitVec 14) (s : State)
    (hfits : s.Fits ((Handler.setReg r).instr count)) (hcount : 1 ≤ count.toNat) (ha : s.PayloadAdmitted count.toNat)
    (hin : (s.packetWord 1).toNat % 2 ^ 16 + (count.toNat - 1) ≤ regionCap s.params r) :
    ∃ t, exec ((Handler.setReg r).instr count) s = .next t ∧ ∀ k, k < count.toNat - 1 →
      t.snapshot.HoldsAt s.params (regionBase s.params r + (s.packetWord 1).toNat % 2 ^ 16 + k)
        (s.packetWord (2 + k)) := by
  obtain ⟨t, hexec, hdone, -, hrf⟩ := exec_setReg_copies r count s hfits hcount ha hin
  refine ⟨t, hexec, fun k hk => ?_⟩
  rw [← read_write_setRegData s.rf _ s count k hk, ← hrf, ← hdone.params]
  exact snapshot_holdsAt t _

/-- A register-block write of one word, whatever its offset: it has a next state, and where the offset is in the region
the draw state then holds its word. -/
theorem exec_setReg_oneWord (r : Region) (s : State) (hfits : s.Fits ((Handler.setReg r).instr 2#14))
    (ha : s.PayloadAdmitted 2) :
    ∃ t, exec ((Handler.setReg r).instr 2#14) s = .next t ∧
      ∀ off, (s.packetWord 1).toNat % 2 ^ 16 = off → off < regionCap s.params r →
        t.snapshot.HoldsAt s.params (regionBase s.params r + off) (s.packetWord 2) := by
  rcases Nat.lt_or_ge ((s.packetWord 1).toNat % 2 ^ 16) (regionCap s.params r) with hin | hout
  · obtain ⟨t, hexec, hview⟩ := exec_setReg_reaches_snapshot r 2#14 s hfits (by decide) ha hin
    exact ⟨t, hexec, fun off hoff _ => hoff ▸ hview 0 (by decide)⟩
  · obtain ⟨t, hexec, -⟩ := exec_setReg_outside r 2#14 s hfits (by decide)
      (fun k h1 hk => ha k h1 (by omega)) (Nat.lt_succ_of_le hout)
    exact ⟨t, hexec, fun off hoff hin => absurd (hoff ▸ hin) (Nat.not_lt.mpr hout)⟩

/-- Settles O17: the copy puts each data word in the register file, where the draw-state view reads it; with the default
parameters the offsets of the rule are the draw-state indices less the base of their region. -/
theorem registerWritesReachTheDrawState : Obligations.RegisterWritesReachTheDrawState := by
  unfold Obligations.RegisterWritesReachTheDrawState
  refine ⟨fun s count row hrow hfits hcount ha hin => ?covered,
    fun s hstd ha => ⟨fun hfits => ?ctx, fun hfits => ?uc⟩⟩
  case covered =>
    change row ∈ [Region.ctx, .sh, .uc].map fun r =>
      ((Handler.setReg r).instr count, regionBase s.params r, regionCap s.params r) at hrow
    obtain ⟨r, -, rfl⟩ := List.mem_map.mp hrow
    obtain ⟨t, hexec, hview⟩ := exec_setReg_reaches_snapshot r count s hfits hcount ha hin
    refine ⟨t, hexec, fun k hk => ?_⟩
    obtain ⟨hmax, htype, hlo, hhi, hinit, hnum⟩ := hview k hk
    exact ⟨hmax, htype, hlo, hhi, hinit, hnum⟩
  case ctx =>
    obtain ⟨t, hexec, hview⟩ := exec_setReg_oneWord .ctx s hfits ha
    rw [hstd] at hview
    exact ⟨t, hexec, fun h => (hview 0x1F9 h (by decide)).indexBaseHigh rfl,
      fun h => (hview 0x1FA h (by decide)).indexBaseLow rfl, fun h => (hview 0x1FC h (by decide)).drawInitiator rfl,
      fun h => (hview 0x29E h (by decide)).maxIndexSize rfl, fun h => (hview 0x29F h (by decide)).indexType rfl⟩
  case uc =>
    obtain ⟨t, hexec, hview⟩ := exec_setReg_oneWord .uc s hfits ha
    rw [hstd] at hview
    exact ⟨t, hexec, fun h => (hview 0x24C h (by decide)).numIndices rfl⟩

end Sys2Proof.Machine

/-! SUPPORT. The draw packets of 42_draw.md: what a packet that raises at once leaves, the register file and the draw
state after the staging of R150, R152 and R156, and the packet that stages and then notifies. -/

namespace Sys2Proof.Machine

/-! ## Single-word writes -/

theorem RegFile.read_write_one_same (rf : RegFile) (i : Nat) (w : Word) : (rf.write i [w]).read i = w := by
  rw [RegFile.read_write_one, if_pos rfl]

theorem RegFile.read_write_one_ne (rf : RegFile) (i : Nat) (w : Word) (j : Nat) (h : j ≠ i) :
    (rf.write i [w]).read j = rf.read j := by
  rw [RegFile.read_write_one, if_neg h]

/-! ## Staging -/

/-- R11's constraint on the six draw-state indices, as inequalities. -/
theorem Params.indicesDistinct_iff (p : Params) :
    p.IndicesDistinct ↔
      (p.ixMaxSize ≠ p.ixIndexType ∧ p.ixMaxSize ≠ p.ixBaseLo ∧ p.ixMaxSize ≠ p.ixBaseHi ∧
        p.ixMaxSize ≠ p.ixDrawInitiator ∧ p.ixMaxSize ≠ p.ixNumIndices) ∧
      (p.ixIndexType ≠ p.ixBaseLo ∧ p.ixIndexType ≠ p.ixBaseHi ∧ p.ixIndexType ≠ p.ixDrawInitiator ∧
        p.ixIndexType ≠ p.ixNumIndices) ∧
      (p.ixBaseLo ≠ p.ixBaseHi ∧ p.ixBaseLo ≠ p.ixDrawInitiator ∧ p.ixBaseLo ≠ p.ixNumIndices) ∧
      (p.ixBaseHi ≠ p.ixDrawInitiator ∧ p.ixBaseHi ≠ p.ixNumIndices) ∧ p.ixDrawInitiator ≠ p.ixNumIndices := by
  simp [Params.IndicesDistinct, Params.drawIndices]

/-- R152's writes, which go to five distinct words: each is read back, and no other word is changed. -/
theorem stageIndexed_reads (s : State) (w1 w2 w3 w4 w5 : Word) (h : s.params.IndicesDistinct) :
    (s.stageIndexed w1 w2 w3 w4 w5).rf.read s.params.ixMaxSize = w1 ∧
      (s.stageIndexed w1 w2 w3 w4 w5).rf.read s.params.ixBaseLo = w2 ∧
      (s.stageIndexed w1 w2 w3 w4 w5).rf.read s.params.ixBaseHi = w3 ∧
      (s.stageIndexed w1 w2 w3 w4 w5).rf.read s.params.ixNumIndices = w4 ∧
      (s.stageIndexed w1 w2 w3 w4 w5).rf.read s.params.ixDrawInitiator = w5 ∧
      ∀ j, j ∉ [s.params.ixMaxSize, s.params.ixBaseLo, s.params.ixBaseHi, s.params.ixNumIndices,
          s.params.ixDrawInitiator] → (s.stageIndexed w1 w2 w3 w4 w5).rf.read j = s.rf.read j := by
  rw [Params.indicesDistinct_iff] at h
  simp only [State.stageIndexed, State.setReg_rf, List.mem_cons, List.not_mem_nil, or_false]
  refine ⟨?_, ?_, ?_, ?_, ?_, fun j hj => ?_⟩ <;>
    simp (disch := omega) only [RegFile.read_write_one_same, RegFile.read_write_one_ne]

/-- R156's writes, which go to two distinct words. -/
theorem stageAuto_reads (s : State) (w1 w2 : Word) (h : s.params.IndicesDistinct) :
    (s.stageAuto w1 w2).rf.read s.params.ixNumIndices = w1 ∧
      (s.stageAuto w1 w2).rf.read s.params.ixDrawInitiator = w2 ∧
      ∀ j, j ∉ [s.params.ixNumIndices, s.params.ixDrawInitiator] →
        (s.stageAuto w1 w2).rf.read j = s.rf.read j := by
  rw [Params.indicesDistinct_iff] at h
  simp only [State.stageAuto, State.setReg_rf, List.mem_cons, List.not_mem_nil, or_false]
  refine ⟨?_, ?_, fun j hj => ?_⟩ <;>
    simp (disch := omega) only [RegFile.read_write_one_same, RegFile.read_write_one_ne]

/-- R153: the draw state that DRAW_INDEX_2 stages, with the index type already there. -/
theorem stageIndexed_snapshot (s : State) (w1 w2 w3 w4 w5 : Word) (h : s.params.IndicesDistinct) :
    (s.stageIndexed w1 w2 w3 w4 w5).snapshot =
      { maxIndexSize := w1
        indexType := s.rf.read s.params.ixIndexType
        indexBase := w3 ++ w2
        numIndices := w4
        drawInitiator := w5 } := by
  obtain ⟨hmax, hlo, hhi, hnum, hinit, hother⟩ := stageIndexed_reads s w1 w2 w3 w4 w5 h
  have htype := hother s.params.ixIndexType (by
    rw [Params.indicesDistinct_iff] at h
    simp only [List.mem_cons, List.not_mem_nil, or_false]
    omega)
  have hparams : (s.stageIndexed w1 w2 w3 w4 w5).params = s.params := rfl
  simp only [State.snapshot, hparams, hmax, hlo, hhi, hnum, hinit, htype, indexBase_eq_append]

/-- R156: the draw state that DRAW_INDEX_AUTO stages, with the four fields that it does not write. -/
theorem stageAuto_snapshot (s : State) (w1 w2 : Word) (h : s.params.IndicesDistinct) :
    (s.stageAuto w1 w2).snapshot =
      { maxIndexSize := s.rf.read s.params.ixMaxSize
        indexType := s.rf.read s.params.ixIndexType
        indexBase := s.rf.read s.params.ixBaseHi ++ s.rf.read s.params.ixBaseLo
        numIndices := w1
        drawInitiator := w2 } := by
  obtain ⟨hnum, hinit, hother⟩ := stageAuto_reads s w1 w2 h
  have hkept : ∀ j ∈ [s.params.ixMaxSize, s.params.ixIndexType, s.params.ixBaseLo, s.params.ixBaseHi],
      (s.stageAuto w1 w2).rf.read j = s.rf.read j := fun j hj =>
    hother j (by
      rw [Params.indicesDistinct_iff] at h
      simp only [List.mem_cons, List.not_mem_nil, or_false] at hj ⊢
      omega)
  have hparams : (s.stageAuto w1 w2).params = s.params := rfl
  simp only [State.snapshot, hparams, hnum, hinit, indexBase_eq_append, hkept, List.mem_cons, true_or, or_true]

/-! ## Outcomes -/

/-- A packet whose handler raises before it has any effect: the fault is entered after the `Packet` event, and no
register and no byte is changed (R223). -/
theorem runPacket_raises_unchanged (i : Instr) (handler : State → Except Stop State) (s : State) (f : FaultCause)
    (v : DWord) (hfits : s.Fits i)
    (hraise : handler (s.emitPacket i) = .error (.raised (s.emitPacket i) f v)) :
    ∃ t, runPacket i handler s = .next t ∧
      FaultEntered s [.packet s.cursor i.opcode i.count i.handler] f s.headerWord v i.count t ∧
      SameRegs s t ∧ SameMem s t := by
  obtain ⟨t, hrun, hfault, hrf, hmem⟩ := runPacket_faults i handler s _ _ f v hfits hraise
    (by rw [← State.emitPacket_trace]; rfl)
  exact ⟨t, hrun, hfault, fun j => by rw [hrf]; rfl, fun a => by rw [hmem]; rfl⟩

/-- A packet that stages registers and then notifies the backend: the `DrawNotify` comes right after the `Packet` event,
with the draw state staged (R155). -/
theorem runPacket_notifies (i : Instr) (handler : State → Except Stop State) (s staged : State) (kind : DrawKind)
    (hfits : s.Fits i) (hstaged : staged = { s.emitPacket i with rf := staged.rf })
    (hok : handler (s.emitPacket i) = .ok (staged.notifyDraw kind)) :
    ∃ t, runPacket i handler s = .next t ∧
      Completed s i.count [.packet s.cursor i.opcode i.count i.handler, .drawNotify kind staged.snapshot] t ∧
      SameMem s t ∧ t.rf = staged.rf := by
  have htrace : (staged.notifyDraw kind).trace =
      s.trace ++ [.packet s.cursor i.opcode i.count i.handler, .drawNotify kind staged.snapshot] := by
    rw [State.notifyDraw, State.emit_trace, congrArg State.trace hstaged]
    simp
  obtain ⟨t, hrun, hdone, hrf, hmem⟩ := runPacket_completes i handler s _ _ hfits hok
    (by rw [← htrace, State.notifyDraw, hstaged]; rfl)
  refine ⟨t, hrun, hdone, fun a => ?_, hrf⟩
  rw [hmem, State.notifyDraw, State.emit_mem, hstaged]
  rfl

/-- Settles O18: the handler makes one write, or raises before it. -/
theorem indexTypeStoresItsWord : Obligations.IndexTypeStoresItsWord := by
  unfold Obligations.IndexTypeStoresItsWord
  refine fun s count hfits => ⟨fun hcount ha => ?stored, fun hzero => ?malformed⟩
  case stored =>
    have hok := indexTypeHandler_ok count (s.emitPacket (.indexType count)) ((hasWords_eq_true count 1).mpr hcount)
      (ha 1 le_rfl le_rfl)
    obtain ⟨t, hexec, hdone, hrf, hmem⟩ := runPacket_completes _ _ s _ _ hfits hok
      (by rw [← State.emitPacket_trace]; rfl)
    refine ⟨t, hexec, hdone, fun a => by rw [hmem]; rfl, ?_, fun j hj => ?_⟩
    · rw [hrf]
      exact RegFile.read_write_one_same _ _ _
    · rw [hrf]
      exact RegFile.read_write_one_ne _ _ _ j hj
  case malformed =>
    subst hzero
    exact runPacket_raises_unchanged _ _ s _ _ hfits (indexTypeHandler_malformed 0#14 _ rfl)

/-- Settles O19: the five writes go to distinct words, so the snapshot taken after them carries them all. -/
theorem drawIndex2StagesAndNotifies : Obligations.DrawIndex2StagesAndNotifies := by
  unfold Obligations.DrawIndex2StagesAndNotifies
  refine fun s count hparams hfits => ⟨fun hcount ha => ?staged, fun hfew => ?malformed⟩
  case staged =>
    obtain ⟨-, -, hdistinct, -, -⟩ := hparams
    have hok := drawIndex2Handler_ok count (s.emitPacket (.drawIndex2 count)) ((hasWords_eq_true count 5).mpr hcount) ha
    obtain ⟨t, hexec, hdone, hmem, hrf⟩ := runPacket_notifies _ _ s _ .indexed hfits rfl hok
    rw [stageIndexed_snapshot (s.emitPacket (.drawIndex2 count)) _ _ _ _ _ hdistinct] at hdone
    refine ⟨t, hexec, hdone, hmem, ?_⟩
    rw [hrf]
    exact stageIndexed_reads (s.emitPacket (.drawIndex2 count)) _ _ _ _ _ hdistinct
  case malformed =>
    rw [BitVec.ofNat_toNat]
    exact runPacket_raises_unchanged _ _ s _ _ hfits
      (drawIndex2Handler_malformed count _ ((hasWords_eq_false count 5).mpr hfew))

/-- Settles O20: the two words written are none of those the other fields of the snapshot are read from. -/
theorem drawIndexAutoStagesAndNotifies : Obligations.DrawIndexAutoStagesAndNotifies := by
  unfold Obligations.DrawIndexAutoStagesAndNotifies
  refine fun s count hparams hfits => ⟨fun hcount ha => ?staged, fun hfew => ?malformed⟩
  case staged =>
    obtain ⟨-, -, hdistinct, -, -⟩ := hparams
    have hok := drawIndexAutoHandler_ok count (s.emitPacket (.drawIndexAuto count))
      ((hasWords_eq_true count 2).mpr hcount) ha
    obtain ⟨t, hexec, hdone, hmem, hrf⟩ := runPacket_notifies _ _ s _ .auto hfits rfl hok
    rw [stageAuto_snapshot (s.emitPacket (.drawIndexAuto count)) _ _ hdistinct] at hdone
    refine ⟨t, hexec, hdone, hmem, ?_⟩
    rw [hrf]
    exact stageAuto_reads (s.emitPacket (.drawIndexAuto count)) _ _ hdistinct
  case malformed =>
    rw [BitVec.ofNat_toNat]
    exact runPacket_raises_unchanged _ _ s _ _ hfits
      (drawIndexAutoHandler_malformed count _ ((hasWords_eq_false count 2).mpr hfew))

end Sys2Proof.Machine

/-! SUPPORT. The draw notifications that a packet adds to the trace (42_draw.md R155). -/

namespace Sys2Proof.Machine

/-- From `s` to `t` the trace is extended, and `draws` are the `DrawNotify` events among those added. -/
def AddsDraws (s t : State) (draws : List Event) : Prop :=
  ∃ events, t.trace = s.trace ++ events ∧ events.filter Event.isDraw = draws

/-- The `DrawNotify` events of a packet of handler `h` that completes with the draw state `v` (R155). -/
def drawEvents (h : Handler) (v : Snapshot) : List Event :=
  if h = .drawIndex2 then [.drawNotify .indexed v]
  else if h = .drawIndexAuto then [.drawNotify .auto v]
  else []

/-! ## The events of each operation -/

theorem addsDraws_refl (s : State) : AddsDraws s s [] := ⟨[], (List.append_nil _).symm, rfl⟩

/-- Events that are no draw notification add none. -/
theorem AddsDraws.append_quiet {s u t : State} {draws added : List Event} (h : AddsDraws s u draws)
    (ht : t.trace = u.trace ++ added) (hquiet : added.filter Event.isDraw = []) : AddsDraws s t draws := by
  obtain ⟨events, hu, rfl⟩ := h
  exact ⟨events ++ added, by rw [ht, hu, List.append_assoc], by rw [List.filter_append, hquiet, List.append_nil]⟩

theorem addsDraws_emitPacket (i : Instr) (s : State) : AddsDraws s (s.emitPacket i) [] :=
  (addsDraws_refl s).append_quiet (State.emitPacket_trace s i) rfl

theorem AddsDraws.raise {s u : State} {draws : List Event} (h : AddsDraws s u draws) (f : FaultCause) (hdr : Word)
    (v : DWord) (n : BitVec 14) : AddsDraws s (u.raise f hdr v n) draws :=
  h.append_quiet (State.raise_trace u f hdr v n) rfl

theorem AddsDraws.advance {s u : State} {draws : List Event} (h : AddsDraws s u draws) (n : Nat) :
    AddsDraws s (u.advance n) draws := by
  by_cases hend : u.cursor + BitVec.ofNat 32 n = u.streamLen
  · exact h.append_quiet (added := [.streamDone u.streamLen]) (by rw [State.advance_trace, if_pos hend]) rfl
  · exact h.append_quiet (added := []) (by rw [State.advance_trace, if_neg hend, List.append_nil]) rfl

/-- A packet whose handler staged registers and then notified: the `Packet` event, then one `DrawNotify`, with the draw
state it left. -/
theorem addsDraws_notified (i : Instr) (s u : State) (kind : DrawKind)
    (hu : u.trace = (s.emitPacket i).trace ++ [.drawNotify kind u.snapshot]) :
    AddsDraws s u [.drawNotify kind u.snapshot] :=
  ⟨[.packet s.cursor i.opcode i.count i.handler, .drawNotify kind u.snapshot], by simpa using hu, rfl⟩

/-- A packet that is no draw adds no draw notification, wherever its handler ends. -/
theorem packetEnd_addsNoDraws (i : Instr) (s u : State) (h : PacketEnd i s u) (h2 : i.handler ≠ .drawIndex2)
    (hauto : i.handler ≠ .drawIndexAuto) : AddsDraws s u [] := by
  have hpacket := addsDraws_emitPacket i s
  cases h with
  | plain => exact hpacket
  | regs => exact hpacket
  | indexType => exact hpacket
  | indexed hi => exact absurd hi h2
  | auto hi => exact absurd hi hauto
  | wrote => exact hpacket.append_quiet (State.emit_trace _ _) rfl
  | interrupted =>
    exact (hpacket.append_quiet (State.emit_trace _ _) rfl).append_quiet (State.emit_trace _ .irq) rfl

/-! ## The outcomes of a packet -/

/-- What R155 says of a step from `s` to `t` by a packet of handler `h`. -/
def NotifiesAs (h : Handler) (s t : State) : Prop :=
  AddsDraws s t (if t.phase = .faulted then [] else drawEvents h t.snapshot)

theorem notifiesAs_raise (h : Handler) {s u : State} (hu : AddsDraws s u []) (f : FaultCause) (hdr : Word) (v : DWord)
    (n : BitVec 14) : NotifiesAs h s (u.raise f hdr v n) := by
  rw [NotifiesAs, if_pos (State.raise_phase ..)]
  exact hu.raise f hdr v n

theorem notifiesAs_advance (h : Handler) {s u : State} (hu : AddsDraws s u (drawEvents h u.snapshot))
    (hphase : u.phase ≠ .faulted) (n : Nat) : NotifiesAs h s (u.advance n) := by
  have hgoes : (u.advance n).phase ≠ .faulted := by
    rw [State.advance_phase]
    split
    · decide
    · exact hphase
  rw [NotifiesAs, if_neg hgoes]
  exact hu.advance n

/-- A packet that can raise only before its handler has any effect: `u` is where its handler ends if it completes. -/
theorem runPacket_notifiesAs (i : Instr) (handler : State → Except Stop State) (s t u : State)
    (hcases : (∃ f v, handler (s.emitPacket i) = .error (.raised (s.emitPacket i) f v)) ∨
      (∃ f, handler (s.emitPacket i) = .error (.stuck f)) ∨ handler (s.emitPacket i) = .ok u)
    (hu : AddsDraws s u (drawEvents i.handler u.snapshot)) (hphase : u.phase ≠ .faulted)
    (h : runPacket i handler s = .next t) : NotifiesAs i.handler s t := by
  cases ho : s.overruns i.count with
  | true =>
    cases (runPacket_overrun i handler s ho).symm.trans h
    exact notifiesAs_raise _ (addsDraws_refl s) _ _ _ _
  | false =>
    rcases hcases with ⟨f, v, hraise⟩ | ⟨f, hstuck⟩ | hok
    · cases (runPacket_raised i handler s _ f v ho hraise).symm.trans h
      exact notifiesAs_raise _ (addsDraws_emitPacket i s) _ _ _ _
    · cases (runPacket_stuck i handler s f ho hstuck).symm.trans h
    · cases (runPacket_ok i handler s u ho hok).symm.trans h
      exact notifiesAs_advance _ hu hphase _

/-- A packet that is no draw notifies nothing, whether it completes or faults. -/
theorem exec_notifiesAs_of_noDraw (i : Instr) (s t : State) (h2 : i.handler ≠ .drawIndex2)
    (hauto : i.handler ≠ .drawIndexAuto) (h : exec i s = .next t) (hphase : s.phase ≠ .faulted) :
    NotifiesAs i.handler s t := by
  rcases exec_cases i s t h with ⟨_, rfl⟩ | ⟨_, u, hend, rfl | ⟨f, v, rfl⟩⟩
  · exact notifiesAs_raise _ (addsDraws_refl s) _ _ _ _
  · have hu := packetEnd_addsNoDraws i s u hend h2 hauto
    have hsame : u.phase = s.phase := by rw [packetEnd_frame i s u hend]
    exact notifiesAs_advance _ (by rwa [drawEvents, if_neg h2, if_neg hauto]) (hsame ▸ hphase) _
  · exact notifiesAs_raise _ (packetEnd_addsNoDraws i s u hend h2 hauto) _ _ _ _

theorem exec_notifiesAs (i : Instr) (s t : State) (h : exec i s = .next t) (hphase : s.phase ≠ .faulted) :
    NotifiesAs i.handler s t := by
  cases i
  case drawIndex2 count =>
    exact runPacket_notifiesAs _ _ s t _ (drawIndex2Handler_cases count _)
      (addsDraws_notified _ s _ .indexed (congrArg State.trace (drawIndex2Result_eq _))) hphase h
  case drawIndexAuto count =>
    exact runPacket_notifiesAs _ _ s t _ (drawIndexAutoHandler_cases count _)
      (addsDraws_notified _ s _ .auto (congrArg State.trace (drawIndexAutoResult_eq _))) hphase h
  all_goals exact exec_notifiesAs_of_noDraw _ s t (by simp [Instr.handler]) (by simp [Instr.handler]) h hphase

/-- Settles O21: a draw raises only before it notifies, and no other handler emits a `DrawNotify`. -/
theorem drawsNotifyExactlyOnce : Obligations.DrawsNotifyExactlyOnce := by
  unfold Obligations.DrawsNotifyExactlyOnce
  exact exec_notifiesAs

end Sys2Proof.Machine

/-! SUPPORT. EVENT_WRITE_EOP (43_event_eop.md): its operands and checks as arithmetic on its payload words, the state its
write-back leaves, and what the interrupt step makes of that state. -/

namespace Sys2Proof.Machine

/-! ## Operands and checks as numbers -/

/-- The write-back address as a number (R172). -/
theorem State.eopAddr_toNat (s : State) :
    s.eopAddr.toNat = (s.packetWord 3).toNat % 2 ^ s.params.addrHiBits * 2 ^ 32 + (s.packetWord 2).toNat :=
  writeBackAddr_toNat _ _ _

theorem eopWidth_dataSel (w3 : Word) : eopWidth (dataSel w3) = if w3.toNat / 2 ^ 29 = 1 then 4 else 8 := by
  simp only [eopWidth, dataSel_eq_iff w3 1 (by decide)]

theorem validDataSel_dataSel (w3 : Word) :
    validDataSel (dataSel w3) = true ↔ w3.toNat / 2 ^ 29 = 1 ∨ w3.toNat / 2 ^ 29 = 2 := by
  rw [← dataSel_eq_iff w3 1 (by decide), ← dataSel_eq_iff w3 2 (by decide)]
  simp [validDataSel]

theorem validDataSel_eq_false (w3 : Word) (h1 : w3.toNat / 2 ^ 29 ≠ 1) (h2 : w3.toNat / 2 ^ 29 ≠ 2) :
    validDataSel (dataSel w3) = false := by
  rw [← Bool.not_eq_true, validDataSel_dataSel]
  exact not_or.mpr ⟨h1, h2⟩

theorem isAligned_eq_true (addr : DWord) (w : Nat) : isAligned addr w = true ↔ addr.toNat % w = 0 := beq_iff_eq

theorem isAligned_eq_false (addr : DWord) (w : Nat) : isAligned addr w = false ↔ addr.toNat % w ≠ 0 :=
  beq_eq_false_iff_ne

theorem missesStream_eq_true (s : State) (addr w : Nat) :
    s.missesStream addr w = true ↔
      addr + w ≤ s.streamBase.toNat ∨ s.streamBase.toNat + s.streamLen.toNat ≤ addr := decide_eq_true_iff

/-- A target that shares a byte with the stream fails the check of R175. -/
theorem missesStream_eq_false_of_shared (s : State) (addr w a : Nat) (hlo : addr ≤ a) (hhi : a < addr + w)
    (hbase : s.streamBase.toNat ≤ a) (hend : a < s.streamBase.toNat + s.streamLen.toNat) :
    s.missesStream addr w = false := by
  rw [← Bool.not_eq_true, missesStream_eq_true]
  omega

theorem validIntSel_eq_false (w3 : Word) (h : w3.toNat / 2 ^ 24 % 4 = 1 ∨ w3.toNat / 2 ^ 24 % 4 = 3) :
    validIntSel (intSel w3) = false := by
  rw [← intSel_eq_iff w3 1 (by decide), ← intSel_eq_iff w3 3 (by decide)] at h
  rcases h with h | h <;> rw [h] <;> rfl

/-- Settles O22: the checks are made in this order, and each raises from a state whose `Packet` event is the packet's
only effect. -/
theorem eopChecksBeforeTheWriteBack : Obligations.EopChecksBeforeTheWriteBack := by
  unfold Obligations.EopChecksBeforeTheWriteBack
  intro s count w addr hfits hw haddr
  rw [← eopWidth_dataSel] at hw
  rw [← State.eopAddr_toNat] at haddr
  subst hw haddr
  refine ⟨fun hfew => ?malformed, fun hcount h2 h3 => ?_⟩
  case malformed =>
    rw [BitVec.ofNat_toNat]
    exact runPacket_raises_unchanged _ _ s _ _ hfits
      (eventWriteEopHandler_malformed count _ ((hasWords_eq_false count 5).mpr hfew))
  have hwords := (hasWords_eq_true count 5).mpr hcount
  refine ⟨fun ⟨hne1, hne2⟩ => ?badData, fun hsel => ?_⟩
  case badData =>
    rw [← dataSel_toNat, BitVec.ofNat_toNat]
    exact runPacket_raises_unchanged _ _ s _ _ hfits
      (eventWriteEopHandler_badData count _ hwords h2 h3 (validDataSel_eq_false _ hne1 hne2))
  have hvalid := (validDataSel_dataSel _).mpr hsel
  rw [BitVec.ofNat_toNat, BitVec.setWidth_eq]
  refine ⟨fun halign => ?misaligned, fun halign ⟨a, hlo, hhi, hbase, hend⟩ => ?aliases⟩
  case misaligned =>
    exact runPacket_raises_unchanged _ _ s _ _ hfits
      (eventWriteEopHandler_misaligned count _ hwords h2 h3 hvalid ((isAligned_eq_false _ _).mpr halign))
  case aliases =>
    exact runPacket_raises_unchanged _ _ s _ _ hfits
      (eventWriteEopHandler_aliases count _ hwords h2 h3 hvalid ((isAligned_eq_true _ _).mpr halign)
        (missesStream_eq_false_of_shared s _ _ a hlo hhi hbase hend))

/-! ## Stored values -/

/-- The number that a write-back stores, of `StoreData.width` bytes (R54). -/
def StoreData.value : StoreData → Nat
  | .data32 v => v.toNat
  | .data64 v => v.toNat

theorem StoreData.bytes_getElem (d : StoreData) (k : Nat) (hk : k < d.bytes.length) :
    d.bytes[k] = BitVec.ofNat 8 (d.value / 2 ^ (8 * k)) := by
  cases d with
  | data32 v => exact leBytes_getElem v 4 k hk
  | data64 v => exact leBytes_getElem v 8 k hk

/-- A store of a write-back's bytes leaves its value at the target, and every other byte alone. -/
theorem stored_of_write (s t : State) (addr : Nat) (d : StoreData) (hmem : t.mem = s.mem.write addr d.bytes) :
    Stored s t addr d.width d.value where
  bytes k hk := by
    rw [← StoreData.bytes_length] at hk
    rw [hmem, Memory.read_write_of_inside _ _ _ k hk, StoreData.bytes_getElem]
  frame a ha := by
    rw [← StoreData.bytes_length] at ha
    rw [hmem, Memory.read_write_of_outside _ _ _ a ha]

/-- `P(5) : P(4)` as a number (R85). -/
theorem toNat_append_words (hi lo : Word) : (hi ++ lo).toNat = hi.toNat * 2 ^ 32 + lo.toNat := by
  rw [BitVec.toNat_append, ← Nat.shiftLeft_add_eq_or_of_lt lo.isLt, Nat.shiftLeft_eq]

/-! ## A packet that passes its checks -/

section
variable {s : State} {count : BitVec 14} {addr w v : Nat} {data : StoreData}

theorem EopChecked.eopAddr_eq (h : EopChecked s count addr w) : s.eopAddr.toNat = addr :=
  s.eopAddr_toNat.trans h.address.symm

theorem EopChecked.eopWidth_eq (h : EopChecked s count addr w) : eopWidth (dataSel (s.packetWord 3)) = w := by
  rw [eopWidth_dataSel]
  rcases h.select with ⟨hsel, rfl⟩ | ⟨hsel, rfl⟩ <;> rw [hsel] <;> rfl

theorem EopChecked.dataSel_eq_one_iff (h : EopChecked s count addr w) : dataSel (s.packetWord 3) = 1#3 ↔ w = 4 := by
  rw [← h.eopWidth_eq, eopWidth]
  split <;> simp [*]

theorem EopLoaded.width_eq (h : EopLoaded s count addr w v data) : data.width = w := by
  rcases h.value with ⟨rfl, -, rfl⟩ | ⟨rfl, -, rfl, -⟩ <;> rfl

theorem EopLoaded.value_eq (h : EopLoaded s count addr w v data) : data.value = v := by
  rcases h.value with ⟨-, rfl, rfl⟩ | ⟨-, rfl, rfl, -⟩
  · rfl
  · exact toNat_append_words _ _

/-- `P(4)` is stored for a width of 4 and `P(5) : P(4)` for a width of 8 (R176). -/
theorem EopLoaded.eopStore_eq (h : EopLoaded s count addr w v data) : s.eopStore = data := by
  simp only [State.eopStore, h.dataSel_eq_one_iff]
  rcases h.value with ⟨rfl, -, rfl⟩ | ⟨rfl, -, rfl, -⟩ <;> rfl

theorem EopLoaded.dataHigh (h : EopLoaded s count addr w v data) (hsel : dataSel (s.packetWord 3) ≠ 1#3) :
    s.admits (s.packetAddr 5) 4 = true := by
  rcases h.value with ⟨hw, -⟩ | ⟨-, -, -, h5⟩
  · exact absurd (h.dataSel_eq_one_iff.mpr hw) hsel
  · exact h5

/-- The state right after the write-back of `data` at `addr` (R176): its bytes are stored, and the `Packet` and
`WriteBack` events emitted. -/
def eopWritten (s : State) (count : BitVec 14) (addr : Nat) (data : StoreData) : State :=
  { s with
    mem := s.mem.write addr data.bytes
    trace := s.trace ++ [.packet s.cursor 0x47#8 count .eventWriteEop, .writeBack (BitVec.ofNat 64 addr) data] }

theorem EopLoaded.afterWriteBack_eq (h : EopLoaded s count addr w v data) :
    (s.emitPacket (.eventWriteEop count)).afterWriteBack = eopWritten s count addr data := by
  rw [← h.eopStore_eq, ← h.eopAddr_eq, eopWritten, BitVec.ofNat_toNat, BitVec.setWidth_eq,
    List.append_cons s.trace]
  rfl

/-- A ready packet is its write-back and then the interrupt step (R176 to R179). -/
theorem EopReady.handler_eq (h : EopReady s count addr w v data) :
    eventWriteEopHandler count (s.emitPacket (.eventWriteEop count)) =
      (eopWritten s count addr data).confirmInterrupt (intSel (s.packetWord 3)) := by
  have haddr := h.eopAddr_eq
  have hwidth := h.eopWidth_eq
  rw [← h.afterWriteBack_eq]
  refine eventWriteEopHandler_writes count _ ((hasWords_eq_true count 5).mpr h.words) h.addressLow h.control h.dataLow
    h.dataHigh ((validDataSel_dataSel _).mpr (h.select.imp And.left And.left)) ?aligned ?clear ?target
  case aligned =>
    rw [isAligned_eq_true]
    change s.eopAddr.toNat % eopWidth (dataSel (s.packetWord 3)) = 0
    rw [haddr, hwidth]
    exact h.aligned
  case clear =>
    change s.missesStream s.eopAddr.toNat (eopWidth (dataSel (s.packetWord 3))) = true
    rw [haddr, hwidth, missesStream_eq_true]
    exact h.clear
  case target =>
    change s.admits s.eopAddr.toNat (eopWidth (dataSel (s.packetWord 3))) = true
    rw [haddr, hwidth]
    exact h.target

theorem EopLoaded.stored (h : EopLoaded s count addr w v data) (t : State)
    (hmem : t.mem = (eopWritten s count addr data).mem) : Stored s t addr w v := by
  rw [← h.width_eq, ← h.value_eq]
  exact stored_of_write s t addr data hmem

/-! ## Outcomes -/

/-- A ready packet whose interrupt step ends with `late` emitted completes, its write-back done. -/
theorem EopReady.completes (h : EopReady s count addr w v data) (u : State) (late : List Event)
    (hconfirm : (eopWritten s count addr data).confirmInterrupt (intSel (s.packetWord 3)) = .ok u)
    (hu : u = { eopWritten s count addr data with trace := (eopWritten s count addr data).trace ++ late }) :
    ∃ t, exec (.eventWriteEop count) s = .next t ∧
      Completed s count
        (.packet s.cursor 0x47#8 count .eventWriteEop :: .writeBack (BitVec.ofNat 64 addr) data :: late) t ∧
      Stored s t addr w v ∧ SameRegs s t := by
  subst hu
  obtain ⟨t, hexec, hdone, hrf, hmem⟩ := runPacket_completes _ _ s _ _ h.fits (h.handler_eq.trans hconfirm)
    (by simp only [eopWritten, List.append_assoc]; rfl)
  exact ⟨t, hexec, hdone, h.stored t hmem, fun i => by rw [hrf]; rfl⟩

/-- A ready packet whose interrupt step raises faults with its write-back done (R177, R179). -/
theorem EopReady.faults (h : EopReady s count addr w v data) (f : FaultCause) (value : DWord)
    (hconfirm : (eopWritten s count addr data).confirmInterrupt (intSel (s.packetWord 3)) =
      .error (.raised (eopWritten s count addr data) f value)) :
    ∃ t, exec (.eventWriteEop count) s = .next t ∧
      FaultEntered s [.packet s.cursor 0x47#8 count .eventWriteEop, .writeBack (BitVec.ofNat 64 addr) data] f
        s.headerWord value count t ∧
      Stored s t addr w v ∧ SameRegs s t := by
  obtain ⟨t, hexec, hfault, hrf, hmem⟩ := runPacket_faults _ _ s _ _ f value h.fits (h.handler_eq.trans hconfirm) rfl
  exact ⟨t, hexec, hfault, h.stored t hmem, fun i => by rw [hrf]; rfl⟩

/-- `INT_SEL` 0: the packet ends with its write-back (R177). -/
theorem EopReady.completes_without_irq (h : EopReady s count addr w v data)
    (hsel : (s.packetWord 3).toNat / 2 ^ 24 % 4 = 0) :
    ∃ t, exec (.eventWriteEop count) s = .next t ∧
      Completed s count [.packet s.cursor 0x47#8 count .eventWriteEop, .writeBack (BitVec.ofNat 64 addr) data] t ∧
      Stored s t addr w v ∧ SameRegs s t := by
  refine h.completes _ [] ?_ (by rw [List.append_nil])
  rw [(intSel_eq_iff _ 0 (by decide)).mpr hsel]
  exact confirmInterrupt_none _

end

/-- Settles O23: after the write-back the interrupt step does nothing, or emits one `Irq` to the sink, which the
write-back leaves as it was. -/
theorem eopWritesBackAndInterrupts : Obligations.EopWritesBackAndInterrupts := by
  unfold Obligations.EopWritesBackAndInterrupts
  refine fun s count addr w v data h => ⟨h.completes_without_irq, fun hsel hsink => ?interrupted⟩
  case interrupted =>
    refine h.completes _ [.irq] ?_ rfl
    rw [(intSel_eq_iff _ 2 (by decide)).mpr hsel]
    exact confirmInterrupt_irq _ hsink

/-- Settles O24: the interrupt step runs on the state the write-back left, and raises from that state. -/
theorem eopInterruptSelectComesAfterTheWriteBack : Obligations.EopInterruptSelectComesAfterTheWriteBack := by
  unfold Obligations.EopInterruptSelectComesAfterTheWriteBack
  refine fun s count addr w v data h =>
    ⟨h.completes_without_irq, fun hsel => ?invalid, fun hsel hsink => ?missing⟩
  case invalid =>
    rw [← intSel_toNat, BitVec.ofNat_toNat]
    exact h.faults _ _ (confirmInterrupt_invalid _ _ (validIntSel_eq_false _ hsel))
  case missing =>
    refine h.faults _ _ ?_
    rw [(intSel_eq_iff _ 2 (by decide)).mpr hsel]
    exact confirmInterrupt_missing _ hsink

end Sys2Proof.Machine

/-! SUPPORT. The recognised-inert packets (44_inert.md): one handler, which does nothing, serves all seven. -/

namespace Sys2Proof.Machine

/-- The handler ids whose packets are recognised and have no effect (R200 to R206, and R158 for DISPATCH_DIRECT). -/
def inertHandlers : List Handler :=
  [.nop, .dispatchDirect, .writeData, .waitRegMem, .eventWriteEos, .dmaData, .acquireMem]

/-- `.ok` as the handler: it reads no payload word, so it cannot be stuck on one, and it can raise no fault. -/
theorem exec_inert (h : Handler) (hinert : h ∈ inertHandlers) (count : BitVec 14) (s : State) :
    exec (h.instr count) s = runPacket (h.instr count) .ok s := by
  simp only [inertHandlers, List.mem_cons, List.not_mem_nil, or_false] at hinert
  rcases hinert with rfl | rfl | rfl | rfl | rfl | rfl | rfl <;> rfl

/-- A packet whose handler does nothing ends with its `Packet` event (R109) and the advance (R110). -/
theorem runPacket_ok_completes (i : Instr) (s : State) (hfits : s.Fits i) :
    ∃ t, runPacket i .ok s = .next t ∧ Completed s i.count [.packet s.cursor i.opcode i.count i.handler] t ∧
      SameRegs s t ∧ SameMem s t := by
  obtain ⟨t, hrun, hdone, hrf, hmem⟩ := runPacket_completes i .ok s (s.emitPacket i) _ hfits rfl
    (by rw [← State.emitPacket_trace]; rfl)
  exact ⟨t, hrun, hdone, fun j => by rw [hrf]; rfl, fun a => by rw [hmem]; rfl⟩

/-- Settles O14: the seven rows are one packet for each inert handler. -/
theorem inertPacketsComplete : Obligations.InertPacketsComplete := by
  unfold Obligations.InertPacketsComplete
  intro s count row hrow hfits
  change row ∈ inertHandlers.map fun h => (h.instr count, h.opcode, h) at hrow
  obtain ⟨h, hinert, rfl⟩ := List.mem_map.mp hrow
  have hdone := runPacket_ok_completes (h.instr count) s hfits
  rwa [← exec_inert h hinert, Instr.opcode, Handler.handler_instr, Handler.count_instr] at hdone

end Sys2Proof.Machine

/-! SUPPORT. The one entry of a fault (60_exceptions.md R225): what the header parse, a packet and `Start` each enter when
they go to phase `Faulted`. -/

namespace Sys2Proof.Machine

/-- The count that a fault of the packet with header `hdr` records (R225): its own, or 0 where the header is not of type 3
and so its count was never decoded. -/
def recordedCount (hdr : Word) : BitVec 14 := if hdr.toNat / 2 ^ 30 = 3 then headerCount hdr else 0#14

theorem recordedCount_type3 (hdr : Word) (h : headerType hdr = 3#2) : recordedCount hdr = headerCount hdr :=
  if_pos ((headerType_eq_three hdr).mp h)

theorem recordedCount_other (hdr : Word) (h : headerType hdr ≠ 3#2) : recordedCount hdr = 0#14 :=
  if_neg (mt (headerType_eq_three hdr).mpr h)

/-- A packet's own count is the one recorded: only a type-3 header selects a packet. -/
theorem recordedCount_of_decodeHeader (hdr : Word) (i : Instr) (h : decodeHeader hdr = .ok i) :
    recordedCount hdr = i.count := by
  obtain ⟨htype, -, hcount⟩ := decodeHeader_ok hdr i h
  rw [recordedCount_type3 hdr htype, hcount]

/-- The fault of a rejected header, of either kind (R104, R107), records the header's count. -/
theorem raiseReject_eq_raise (s : State) (hdr : Word) (r : HeaderReject) (h : decodeHeader hdr = .error r) :
    ∃ cause value, s.raiseReject hdr r = s.raise cause hdr value (recordedCount hdr) := by
  by_cases htype : headerType hdr = 3#2
  · rw [recordedCount_type3 hdr htype]
    cases hroute : route (headerOpcode hdr) with
    | none =>
      cases (decodeHeader_unknown hdr htype hroute).symm.trans h
      exact ⟨_, _, rfl⟩
    | some hd => simp [decodeHeader_type3 hdr htype, hroute] at h
  · rw [recordedCount_other hdr htype]
    cases (decodeHeader_other hdr htype).symm.trans h
    exact ⟨_, _, rfl⟩

/-- The advance of R110 leads from no other phase into `Faulted`. -/
theorem advance_phase_ne_faulted (u : State) (n : Nat) (h : u.phase ≠ .faulted) : (u.advance n).phase ≠ .faulted := by
  rw [State.advance_phase]
  split
  · decide
  · exact h

/-- A handler that raises enters the fault after the events it made before (R223). -/
theorem packetEnd_raise_enters_fault (i : Instr) (s u : State) (h : PacketEnd i s u) (cause : FaultCause) (hdr : Word)
    (value : DWord) (n : BitVec 14) : ∃ events, FaultEntered s events cause hdr value n (u.raise cause hdr value n) := by
  obtain ⟨events, htrace, -⟩ := packetEnd_trace i s u h
  exact ⟨_, faultEntered_raise s u _ cause hdr value n (htrace ▸ packetEnd_frame i s u h)⟩

/-- A packet that goes to phase `Faulted` overran the stream or its handler raised: either way the fault is entered with
its header and count. -/
theorem exec_enters_fault (i : Instr) (s t : State) (h : exec i s = .next t) (hphase : s.phase ≠ .faulted)
    (hfaulted : t.phase = .faulted) :
    ∃ cause value events, FaultEntered s events cause s.headerWord value i.count t := by
  rcases exec_cases i s t h with ⟨_, rfl⟩ | ⟨_, u, hend, rfl | ⟨cause, value, rfl⟩⟩
  case inl => exact ⟨_, _, _, (raise_enters_fault s _ _ _ _).1⟩
  case inr.inl =>
    have hsame : u.phase = s.phase := by rw [packetEnd_frame i s u hend]
    exact absurd hfaulted (advance_phase_ne_faulted u _ (hsame ▸ hphase))
  case inr.inr => exact ⟨cause, value, packetEnd_raise_enters_fault i s u hend cause _ value _⟩

theorem step_enters_fault (s t : State) (h : step s = .next t) (hfaulted : t.phase = .faulted) :
    ∃ cause value events, FaultEntered s events cause s.headerWord value (recordedCount s.headerWord) t := by
  obtain ⟨hscanning, -, ⟨r, hr, rfl⟩ | ⟨i, hi, hexec⟩⟩ := step_cases s t h
  · obtain ⟨cause, value, hraise⟩ := raiseReject_eq_raise s s.headerWord r hr
    rw [hraise]
    exact ⟨cause, value, [], (raise_enters_fault s _ _ _ _).1⟩
  · rw [recordedCount_of_decodeHeader _ i hi]
    exact exec_enters_fault i s t hexec (by simp [hscanning]) hfaulted

/-- Of the three ends of an accepted `Start` (R100), only a bad shape goes to phase `Faulted`. -/
theorem start_enters_fault (s t : State) (b : DWord) (l : BitVec 32) (h : s.start b l = .accepted t)
    (hfaulted : t.phase = .faulted) :
    FaultEntered (s.latchStream b l) [] .streamShapeInvalid 0#32 (l.setWidth 64) 0#14 t := by
  by_cases hready : s.halted = true ∨ s.phase = .scanning
  · cases (start_refused s b l hready).symm.trans h
  · obtain ⟨hh, hp⟩ : s.halted = false ∧ s.phase ≠ .scanning := by simpa using hready
    cases hshape : streamShapeOk b l with
    | false =>
      cases (start_badShape s b l hh hp hshape).symm.trans h
      exact (raise_enters_fault _ _ _ _ _).1
    | true =>
      by_cases hl : l = 0#32
      · subst hl
        cases (start_empty s b hh hp hshape).symm.trans h
        simp at hfaulted
      · cases (start_scans s b l hh hp hshape hl).symm.trans h
        simp at hfaulted

/-- Settles O12: a fault of a step is a rejected header's or a packet's, and a fault of `Start` is a bad shape's. -/
theorem everyFaultIsEnteredAlike : Obligations.EveryFaultIsEnteredAlike := by
  unfold Obligations.EveryFaultIsEnteredAlike
  exact ⟨step_enters_fault, start_enters_fault⟩

end Sys2Proof.Machine

/-! SUPPORT. The decoder outside phase `Scanning`: it has no step (40_dispatcher.md R101), and what `RegisterSink` answers
(60_exceptions.md R236). -/

namespace Sys2Proof.Machine

/-- R101: no header is fetched outside `Scanning`, so there is no step. -/
theorem step_noStep (s : State) (h : s.phase ≠ .scanning) : step s = .fault .noStep := by
  have hfetch : s.fetchHeader = .error .noStep := if_neg h
  simp only [step, hfetch]

theorem registerSink_refused (s : State) (h : s.sinkRegistered = true ∨ s.phase = .scanning) :
    s.registerSink = .refused := if_pos h

theorem registerSink_accepted (s : State) (hsink : s.sinkRegistered = false) (hp : s.phase ≠ .scanning) :
    s.registerSink = .accepted { s with sinkRegistered := true } :=
  if_neg (by simp [hsink, hp])

/-- Settles O32: a clause per branch of `RegisterSink`. -/
theorem sinkIsRegisteredOnce : Obligations.SinkIsRegisteredOnce := by
  unfold Obligations.SinkIsRegisteredOnce
  exact fun s => ⟨registerSink_refused s, registerSink_accepted s⟩

/-- Settles O33: the invariant makes a faulted decoder halted (R28), and registering a sink changes neither. -/
theorem faultedDecoderStaysHalted : Obligations.FaultedDecoderStaysHalted := by
  unfold Obligations.FaultedDecoderStaysHalted
  intro s hinv hphase
  have hhalted : s.halted = true := hinv.halted.mpr hphase
  have hnotScanning : s.phase ≠ .scanning := by simp [hphase]
  refine ⟨hhalted, step_noStep s hnotScanning, fun b l => start_refused s b l (.inl hhalted), fun hsink => ?_,
    s.resetDecoder_phase, s.resetDecoder_halted⟩
  exact ⟨_, registerSink_accepted s hsink hnotScanning, hphase, hhalted, step_noStep _ hnotScanning⟩

end Sys2Proof.Machine

/-! SUPPORT. The header as a number made of its four fields, and parsed back (30_encoding.md R71 to R75, R86); the
operands of EVENT_WRITE_EOP as R93 writes them (R81, R85). -/

namespace Sys2Proof

/-- Two fields side by side, as a number. -/
theorem toNat_append_eq_add {m n : Nat} (x : BitVec m) (y : BitVec n) : (x ++ y).toNat = x.toNat * 2 ^ n + y.toNat := by
  rw [BitVec.toNat_append, ← Nat.shiftLeft_add_eq_or_of_lt y.isLt, Nat.shiftLeft_eq]

/-! ## Headers -/

/-- `(count - 1) mod 2^14`, the COUNT_FIELD of R86. -/
theorem toNat_count_sub_one (count : BitVec 14) : (count - 1#14).toNat = (count.toNat + (2 ^ 14 - 1)) % 2 ^ 14 := by
  rw [BitVec.toNat_sub, Nat.add_comm]
  rfl

/-- The formula of R86 as a sum: its four fields share no bit. -/
theorem makeHeader_toNat (op : BitVec 8) (count : BitVec 14) (low8 : BitVec 8) :
    (makeHeader op count low8).toNat =
      0xC0000000 + (count.toNat + (2 ^ 14 - 1)) % 2 ^ 14 * 2 ^ 16 + op.toNat * 2 ^ 8 + low8.toNat := by
  have hfields : makeHeader op count low8 = (((3#2 ++ (count - 1#14)) ++ op) ++ low8 : BitVec 32) :=
    header_fields_append (count - 1#14) op low8
  rw [hfields, ← toNat_count_sub_one]
  simp only [toNat_append_eq_add, BitVec.toNat_ofNat]
  omega

/-- R86: a made header is parsed back, whatever its ignored low byte is. -/
theorem decodeHeader_makeHeader (i : Instr) (low8 : BitVec 8) :
    decodeHeader (makeHeader i.opcode i.count low8) = .ok i :=
  (decodeHeader_eq_ok_iff _ i).mpr
    ⟨headerType_makeHeader _ _ _, headerOpcode_makeHeader _ _ _, headerCount_makeHeader _ _ _⟩

/-- The byte decoder answers a packet exactly where the header parse does on the word of the first four bytes. -/
theorem decode_eq_ok_iff (b0 b1 b2 b3 : Byte) (rest : List Byte) (i : Instr) :
    decode (b0 :: b1 :: b2 :: b3 :: rest) = .ok i ↔ decodeHeader (wordOfBytes b0 b1 b2 b3) = .ok i := by
  rw [decode]
  cases decodeHeader (wordOfBytes b0 b1 b2 b3) <;> simp

/-- Settles O1: the fields of a made header are those it was made from, and its bytes are those of its word. -/
theorem canonicalHeadersDecode : Obligations.CanonicalHeadersDecode := by
  unfold Obligations.CanonicalHeadersDecode
  refine ⟨makeHeader_toNat, decodeHeader_makeHeader, fun i rest => ?_⟩
  refine (decode_eq_ok_iff _ _ _ _ rest i).mpr ?_
  rw [wordOfBytes_leBytes]
  exact decodeHeader_makeHeader i 0#8

/-- The header parse looks at nothing but the three fields. -/
theorem decodeHeader_congr (hdr hdr' : Word) (htype : headerType hdr = headerType hdr')
    (hop : headerOpcode hdr = headerOpcode hdr') (hcount : headerCount hdr = headerCount hdr') :
    decodeHeader hdr = decodeHeader hdr' := by
  simp only [decodeHeader, htype, hop, hcount]

/-- Settles O3: the type, the opcode and the count are all read from bits [31:8]. -/
theorem lowHeaderBitsAreIgnored : Obligations.LowHeaderBitsAreIgnored := by
  unfold Obligations.LowHeaderBitsAreIgnored
  intro hdr hdr' hhigh
  have hshift : ∀ h : Word, h.toNat / 2 ^ 16 = h.toNat / 2 ^ 8 / 2 ^ 8 ∧ h.toNat / 2 ^ 30 = h.toNat / 2 ^ 8 / 2 ^ 22 :=
    fun h => by omega
  refine decodeHeader_congr hdr hdr' (BitVec.eq_of_toNat_eq ?_) (BitVec.eq_of_toNat_eq ?_) ?_
  · rw [headerType_toNat, headerType_toNat, (hshift hdr).2, (hshift hdr').2, hhigh]
  · rw [headerOpcode_toNat, headerOpcode_toNat, hhigh]
  · rw [headerCount_eq, headerCount_eq, (hshift hdr).1, (hshift hdr').1, hhigh]

/-- Settles O4: eight closed words. -/
theorem writtenHeadersDecode : Obligations.WrittenHeadersDecode := by
  unfold Obligations.WrittenHeadersDecode
  decide

/-! ## The operands of EVENT_WRITE_EOP -/

/-- DW3 as R93 writes it, its fields and the zeros between them put side by side. -/
theorem eopControl_eq_append (addr : DWord) (dsel : BitVec 3) (isel : BitVec 2) :
    eopControl addr dsel isel = (dsel ++ (0#3 ++ (isel ++ (0#8 ++ addr.extractLsb' 32 16))) : BitVec 32) := by
  apply BitVec.eq_of_getLsbD_eq
  intro i hi
  simp only [eopControl, BitVec.getLsbD_append, BitVec.getLsbD_or, BitVec.getLsbD_shiftLeft, BitVec.getLsbD_setWidth]
  interval_cases i <;> simp

theorem eopControl_toNat (addr : DWord) (dsel : BitVec 3) (isel : BitVec 2) :
    (eopControl addr dsel isel).toNat = dsel.toNat * 2 ^ 29 + isel.toNat * 2 ^ 24 + addr.toNat / 2 ^ 32 % 2 ^ 16 := by
  simp only [eopControl_eq_append, toNat_append_eq_add, BitVec.extractLsb'_toNat, Nat.shiftRight_eq_div_pow,
    BitVec.toNat_ofNat]
  omega

/-- The six words of R93: an EVENT_WRITE_EOP header with a count of 5, and its payload. -/
theorem assembleEop_eq (ev : Word) (addr : DWord) (dsel : BitVec 3) (isel : BitVec 2) (v : DWord) :
    assembleEop ev addr dsel isel v =
      [0xC0044700#32, ev, addr.extractLsb' 0 32, eopControl addr dsel isel, v.extractLsb' 0 32,
        v.extractLsb' 32 32] := by
  have hheader : encode (.eventWriteEop 5#14) = 0xC0044700#32 := by decide
  rw [← hheader]
  rfl

/-- A 64-bit value is its high word above its low word (R85). -/
theorem extractLsb'_high_append_low (v : DWord) : v.extractLsb' 32 32 ++ v.extractLsb' 0 32 = v := by
  apply BitVec.eq_of_toNat_eq
  rw [toNat_append_eq_add, BitVec.extractLsb'_toNat, BitVec.extractLsb'_toNat, Nat.shiftRight_eq_div_pow]
  omega

end Sys2Proof

namespace Sys2Proof.Machine

/-- Settles O5: each operand is read back from DW3's number; an address below 2^48 has no bit that DW2 and DW3 lose. -/
theorem eopOperandsRoundTrip : Obligations.EopOperandsRoundTrip := by
  unfold Obligations.EopOperandsRoundTrip
  intro ev addr dsel isel v haddr
  have hd := dsel.isLt
  have hi := isel.isLt
  have hcontrol := eopControl_toNat addr dsel isel
  refine ⟨_, _, _, _, assembleEop_eq .., BitVec.eq_of_toNat_eq ?_, BitVec.eq_of_toNat_eq ?_, BitVec.eq_of_toNat_eq ?_,
    extractLsb'_high_append_low v⟩
  · rw [dataSel_toNat, hcontrol]
    omega
  · rw [intSel_toNat, hcontrol]
    omega
  · rw [writeBackAddr_toNat, hcontrol, BitVec.extractLsb'_toNat, Nat.shiftRight_zero]
    omega

end Sys2Proof.Machine

/-! SUPPORT. What a step runs and the phase it asks for (40_dispatcher.md R101, R102), and closed facts: the fault codes
(60_exceptions.md R220), the reset state and the default parameters. -/

namespace Sys2Proof.Machine

/-- A scanning decoder whose admitted header is the packet `i` runs it. -/
theorem step_of_packet (s : State) (i : Instr) (hp : s.phase = .scanning) (ha : s.admits (s.packetAddr 0) 4 = true)
    (hi : decodeHeader s.headerWord = .ok i) : step s = exec i s := by
  simp only [step, fetchHeader_of s hp ha, hi]

/-- Settles O6: the header word is the four bytes at the cursor. -/
theorem stepRunsTheDecodedPacket : Obligations.StepRunsTheDecodedPacket := by
  unfold Obligations.StepRunsTheDecodedPacket
  exact fun s i hp ha hi => step_of_packet s i hp ha ((decode_eq_ok_iff _ _ _ _ [] i).mp hi)

/-- While scanning, the cursor and the length of the stream are multiples of 4, so that at least one word is left. -/
theorem State.Inv.header_inside {s : State} (h : s.Inv) (hp : s.phase = .scanning) :
    s.cursor.toNat + 4 ≤ s.streamLen.toNat := by
  have haligned := h.cursorAligned
  have hlt := h.scanning hp
  obtain ⟨-, hlen, -⟩ := h.shape (by simp [hp])
  omega

/-- Settles O7: no header is fetched outside `Scanning`, and inside it one is left. -/
theorem noStepOutsideScanning : Obligations.NoStepOutsideScanning := by
  unfold Obligations.NoStepOutsideScanning
  exact fun s => ⟨step_noStep s, State.Inv.header_inside⟩

/-- The causes of R220, in the table's order. -/
def faultCauses : List FaultCause :=
  [.unsupportedPacketFamily, .unknownOpcode, .invalidDataSelect, .invalidInterruptSelect, .missingInterruptSink,
    .streamOverrun, .regionBoundsViolation, .malformedPacket, .misalignedWriteBack, .writeBackAliasesStream,
    .streamShapeInvalid]

/-- A cause stands in the table at the place that its number says. -/
theorem faultCauses_getElem_number (c : FaultCause) : faultCauses[c.number - 1]? = some c := by
  cases c <;> rfl

/-- Settles O13: a cause is found again by its number. -/
theorem faultCodesAreOneToEleven : Obligations.FaultCodesAreOneToEleven := by
  unfold Obligations.FaultCodesAreOneToEleven
  refine ⟨by decide, fun a b h => Option.some.inj ?_⟩
  rw [← faultCauses_getElem_number a, h, faultCauses_getElem_number b]

/-- Settles O34: every field of the reset state, as it is written. -/
theorem resetLeavesTheStatedValues : Obligations.ResetLeavesTheStatedValues := by
  unfold Obligations.ResetLeavesTheStatedValues
  exact ⟨fun _ => rfl, rfl, rfl, rfl, rfl, rfl, rfl, rfl, rfl, fun _ => rfl⟩

/-- Settles O35: R12's check of the defaults, on closed numbers. -/
theorem defaultParametersAreValid : Obligations.DefaultParametersAreValid := by
  unfold Obligations.DefaultParametersAreValid
  decide

end Sys2Proof.Machine

/-! SUPPORT. Writes of memory and registers, packet by packet: which handler's end changes which (20_memory.md
section 2, 10_state.md section 1), and what a write-back reads back as (R55). -/

namespace Sys2Proof.Machine

/-! ## Reading a write-back -/

/-- Byte `k` of a value, least significant first. -/
theorem leBytes_getElem_eq_extractLsb' {w : Nat} (v : BitVec w) (n k : Nat) (hk : k < (leBytes n v).length) :
    (leBytes n v)[k] = v.extractLsb' (8 * k) 8 := by
  simp [leBytes]

/-- A field of a field. -/
theorem extractLsb'_extractLsb'_of_le {w : Nat} (v : BitVec w) (start len start' len' : Nat) (h : start' + len' ≤ len) :
    (v.extractLsb' start len).extractLsb' start' len' = v.extractLsb' (start + start') len' := by
  apply BitVec.eq_of_getLsbD_eq
  intro i hi
  simp only [BitVec.getLsbD_extractLsb', Nat.add_assoc, decide_eq_true (show start' + i < len by omega), Bool.true_and]

/-- A byte of a value written in little-endian order is read back. -/
theorem Memory.read_write_leBytes {w : Nat} (m : Memory) (a n k : Nat) (v : BitVec w) (hk : k < n) :
    (m.write a (leBytes n v)).read (a + k) = v.extractLsb' (8 * k) 8 := by
  rw [Memory.read_write_of_inside _ _ _ k (by rwa [leBytes_length]), leBytes_getElem_eq_extractLsb']

/-- Stream word `j` of a value written in little-endian order is its 32 bits from bit `32 * j` on. -/
theorem Memory.readWord_write_leBytes {w : Nat} (m : Memory) (a n j : Nat) (v : BitVec w) (hj : 4 * j + 4 ≤ n) :
    (m.write a (leBytes n v)).readWord (a + 4 * j) = v.extractLsb' (32 * j) 32 := by
  have hbyte : ∀ k, k < 4 →
      (m.write a (leBytes n v)).read (a + 4 * j + k) = (v.extractLsb' (32 * j) 32).extractLsb' (8 * k) 8 := by
    intro k hk
    rw [Nat.add_assoc, Memory.read_write_leBytes m a n _ v (by omega),
      extractLsb'_extractLsb'_of_le v _ _ _ _ (by omega), show 8 * (4 * j + k) = 32 * j + 8 * k by omega]
  rw [Memory.readWord, hbyte 1 (by decide), hbyte 2 (by decide), hbyte 3 (by decide)]
  have h0 := hbyte 0 (by decide)
  rw [Nat.add_zero] at h0
  rw [h0]
  exact wordOfBytes_leBytes _

/-- Settles O25: a write-back of 4 bytes is word 0 of its value, and one of 8 bytes is words 0 and 1. -/
theorem storesReadBackAsWords : Obligations.StoresReadBackAsWords := by
  unfold Obligations.StoresReadBackAsWords
  refine fun m a => ⟨fun v => ?_, fun v => ⟨?_, ?_⟩⟩
  · exact (Memory.readWord_write_leBytes m a 4 0 v (by decide)).trans BitVec.extractLsb'_eq_self
  · exact Memory.readWord_write_leBytes m a 8 0 v (by decide)
  · exact Memory.readWord_write_leBytes m a 8 1 v (by decide)

/-! ## What a handler's end writes -/

@[simp] theorem drawIndex2Result_mem (s : State) : (drawIndex2Result s).mem = s.mem := by
  simp only [drawIndex2Result, State.notifyDraw, State.stageIndexed, State.emit_mem, State.setReg_mem]

@[simp] theorem drawIndexAutoResult_mem (s : State) : (drawIndexAutoResult s).mem = s.mem := by
  simp only [drawIndexAutoResult, State.notifyDraw, State.stageAuto, State.emit_mem, State.setReg_mem]

/-- Only EVENT_WRITE_EOP writes memory, and it writes admitted bytes outside the stream (R175, R176). -/
theorem packetEnd_mem (i : Instr) (s u : State) (h : PacketEnd i s u) :
    u.mem = s.mem ∨
      (i.handler = .eventWriteEop ∧ u.mem = s.mem.write s.eopAddr.toNat s.eopStore.bytes ∧
        s.admits s.eopAddr.toNat s.eopStore.width = true ∧ s.missesStream s.eopAddr.toNat s.eopStore.width = true) := by
  cases h with
  | wrote hi ha hm => exact .inr ⟨hi, rfl, ha, hm⟩
  | interrupted hi ha hm => exact .inr ⟨hi, rfl, ha, hm⟩
  | indexed => exact .inl (by rw [drawIndex2Result_mem, State.emitPacket_mem])
  | auto => exact .inl (by rw [drawIndexAutoResult_mem, State.emitPacket_mem])
  | _ => exact .inl rfl

/-- The handler ids that write the register file (10_state.md section 1). -/
def registerWriters : List Handler :=
  [.setReg .ctx, .setReg .sh, .setReg .uc, .indexType, .drawIndex2, .drawIndexAuto]

/-- A handler that is none of them leaves the register file as it was. -/
theorem packetEnd_rf_of_not_writer (i : Instr) (s u : State) (h : PacketEnd i s u) (hi : i.handler ∉ registerWriters) :
    u.rf = s.rf := by
  cases h with
  | regs r off ws hr => cases r <;> exact absurd hr fun hr => hi (hr ▸ by decide)
  | indexType w hr => exact absurd (hr ▸ by decide) hi
  | indexed hr => exact absurd (hr ▸ by decide) hi
  | auto hr => exact absurd (hr ▸ by decide) hi
  | _ => rfl

/-! ## What a step writes -/

/-- All that a step leaves in memory and in the register file: what they held, or what the handler of the decoded packet
left there. -/
theorem step_storage (s t : State) (h : step s = .next t) :
    (t.rf = s.rf ∧ t.mem = s.mem) ∨
      ∃ i u, decodeHeader s.headerWord = .ok i ∧ PacketEnd i s u ∧ t.rf = u.rf ∧ t.mem = u.mem := by
  obtain ⟨-, -, ⟨r, -, rfl⟩ | ⟨i, hi, hexec⟩⟩ := step_cases s t h
  · obtain ⟨f, v, c, hraise⟩ := raiseReject_cases s s.headerWord r
    rw [hraise]
    exact .inl ⟨rfl, rfl⟩
  · rcases exec_cases i s t hexec with ⟨-, rfl⟩ | ⟨-, u, hend, rfl | ⟨f, v, rfl⟩⟩
    · exact .inl ⟨rfl, rfl⟩
    · exact .inr ⟨i, u, hi, hend, rfl, rfl⟩
    · exact .inr ⟨i, u, hi, hend, rfl, rfl⟩

/-- Settles O26: a step writes what the handler of its packet writes, and nothing else. -/
theorem onlyTheirHandlersWrite : Obligations.OnlyTheirHandlersWrite := by
  unfold Obligations.OnlyTheirHandlersWrite
  intro s t h
  rcases step_storage s t h with ⟨hrf, hmem⟩ | ⟨i, u, hi, hend, hrf, hmem⟩
  · exact ⟨fun _ a => by rw [hmem], fun _ j => by rw [hrf]⟩
  · refine ⟨fun hnot a => ?_, fun hnot j => ?_⟩
    · rcases packetEnd_mem i s u hend with hsame | ⟨heop, -⟩
      · rw [hmem, hsame]
      · refine absurd ?_ (hnot i.count)
        rw [hi, ← Instr.instr_handler i, heop, Handler.count_instr]
        rfl
    · rw [hrf, packetEnd_rf_of_not_writer i s u hend (hnot i hi)]

/-- Settles O27: the one write there is passed the check against the stream (R175). -/
theorem stepsLeaveTheStreamAlone : Obligations.StepsLeaveTheStreamAlone := by
  unfold Obligations.StepsLeaveTheStreamAlone
  intro s t h a hlo hhi
  rcases step_storage s t h with ⟨-, hmem⟩ | ⟨i, u, -, hend, -, hmem⟩
  · rw [hmem]
  · rcases packetEnd_mem i s u hend with hsame | ⟨-, hwrite, -, hmiss⟩
    · rw [hmem, hsame]
    · rw [missesStream_eq_true] at hmiss
      rw [hmem, hwrite, Memory.read_write_of_outside _ _ _ a (by rw [StoreData.bytes_length]; omega)]

end Sys2Proof.Machine

/-! SUPPORT. The control state across a step (10_state.md sections 4 to 6): a step completes a packet or enters a fault,
and either way only appends to the trace. -/

namespace Sys2Proof.Machine

/-- What a step from `s` to `t` is, apart from what it writes: a packet that completed, or a fault entered after some
events. In both no event but the last is a `Fault`, and a completed packet's own `Packet` event is its first and only
one. -/
inductive StepOutcome (s t : State) : Prop where
  | completed (i : Instr) (events : List Event) (hi : decodeHeader s.headerWord = .ok i) (hfits : s.Fits i)
      (hquiet : ∀ e ∈ events, e.isFault = false ∧ e.isPacket = false)
      (hdone : Completed s i.count (.packet s.cursor i.opcode i.count i.handler :: events) t)
  | faulted (cause : FaultCause) (value : DWord) (n : BitVec 14) (events : List Event)
      (hquiet : ∀ e ∈ events, e.isFault = false) (hfault : FaultEntered s events cause s.headerWord value n t)

theorem stepOutcome_raise (s : State) (cause : FaultCause) (value : DWord) (n : BitVec 14) :
    StepOutcome s (s.raise cause s.headerWord value n) :=
  .faulted cause value n [] (by simp) (raise_enters_fault s _ _ _ _).1

theorem exec_outcome (i : Instr) (s t : State) (hi : decodeHeader s.headerWord = .ok i) (h : exec i s = .next t) :
    StepOutcome s t := by
  rcases exec_cases i s t h with ⟨-, rfl⟩ | ⟨ho, u, hend, hu⟩
  · exact stepOutcome_raise s _ _ _
  · obtain ⟨events, htrace, hquiet⟩ := packetEnd_trace i s u hend
    have hfits : s.Fits i := (fits_iff s i).mpr ho
    have hframe : u = { s with rf := u.rf, mem := u.mem, trace := s.trace ++ _ } := htrace ▸ packetEnd_frame i s u hend
    rcases hu with rfl | ⟨cause, value, rfl⟩
    · exact .completed i events hi hfits hquiet (completed_advance s u i _ hfits hframe)
    · refine .faulted cause value _ _ ?_ (faultEntered_raise s u _ cause _ value _ hframe)
      rw [List.forall_mem_cons]
      exact ⟨rfl, fun e he => (hquiet e he).1⟩

/-- Every step is one or the other, from phase `Scanning` (R101). -/
theorem step_outcome (s t : State) (h : step s = .next t) : s.phase = .scanning ∧ StepOutcome s t := by
  obtain ⟨hp, -, ⟨r, -, rfl⟩ | ⟨i, hi, hexec⟩⟩ := step_cases s t h
  · obtain ⟨cause, value, n, hraise⟩ := raiseReject_cases s s.headerWord r
    exact ⟨hp, hraise ▸ stepOutcome_raise s cause value n⟩
  · exact ⟨hp, exec_outcome i s t hi hexec⟩

/-- A packet that completes leaves the decoder scanning, or done with the cursor at the end of the stream (R111). -/
theorem Completed.phase_cases {s t : State} {count : BitVec 14} {events : List Event} (h : Completed s count events t)
    (hp : s.phase = .scanning) :
    (t.phase = .done ∧ t.cursor = t.streamLen) ∨ (t.phase = .scanning ∧ t.cursor.toNat ≠ t.streamLen.toNat) := by
  have hphase := h.phase
  rw [← h.cursor, ← h.streamLen, hp] at hphase
  by_cases hend : t.cursor.toNat = t.streamLen.toNat
  · exact .inl ⟨hphase.trans (if_pos hend), BitVec.eq_of_toNat_eq hend⟩
  · exact .inr ⟨hphase.trans (if_neg hend), hend⟩

theorem Completed.phase_ne_faulted {s t : State} {count : BitVec 14} {events : List Event}
    (h : Completed s count events t) (hp : s.phase = .scanning) : t.phase ≠ .faulted := by
  rcases h.phase_cases hp with ⟨hdone, -⟩ | ⟨hscan, -⟩
  · simp [hdone]
  · simp [hscan]

/-- Settles O28: each field is kept by a packet that completes and by a fault's entry. -/
theorem stepsKeepTheControlState : Obligations.StepsKeepTheControlState := by
  unfold Obligations.StepsKeepTheControlState
  intro s t h
  obtain ⟨hp, ⟨i, events, -, -, -, hdone⟩ | ⟨cause, value, n, events, -, hfault⟩⟩ := step_outcome s t h
  case completed =>
    refine ⟨hdone.params, hdone.streamBase, hdone.streamLen, hdone.sinkRegistered,
      ⟨_, hdone.trace.trans (List.append_assoc _ _ _)⟩, fun _ => ⟨hdone.halted, hdone.faultRec, ?_⟩,
      fun hf => absurd hf (hdone.phase_ne_faulted hp)⟩
    rw [hdone.cursor]
    omega
  case faulted =>
    exact ⟨hfault.params, hfault.streamBase, hfault.streamLen, hfault.sinkRegistered,
      ⟨_, hfault.trace.trans (List.append_assoc _ _ _)⟩, fun hf => absurd hfault.phase hf, fun _ => hfault.cursor⟩

end Sys2Proof.Machine

/-! SUPPORT. The decoder's invariant (10_state.md sections 1, 4 and 5, 60_exceptions.md section 2) across steps, host
transactions and resets. -/

namespace Sys2Proof.Machine

/-! ## Canonical forms -/

/-- Host memory is in its canonical form, inside the 64-bit address space. -/
def Memory.Canonical (m : Memory) : Prop := m.wf ∧ ∀ c ∈ m, c.1 < 2 ^ 64

/-- The register file is in its canonical form, inside the first `n` words. -/
def RegFile.Canonical (rf : RegFile) (n : Nat) : Prop := rf.wf ∧ ∀ c ∈ rf, c.1 < n

theorem Memory.Canonical.write {m : Memory} (h : m.Canonical) (a : Nat) (bs : List Byte) (hb : a + bs.length ≤ 2 ^ 64) :
    (m.write a bs).Canonical :=
  ⟨m.write_wf a bs h.1, m.write_inside a _ bs h.2 hb⟩

theorem RegFile.Canonical.write {rf : RegFile} {n : Nat} (h : rf.Canonical n) (i : Nat) (ws : List Word)
    (hb : i + ws.length ≤ n) : (rf.write i ws).Canonical n :=
  ⟨rf.write_wf i ws h.1, rf.write_inside i n ws h.2 hb⟩

/-- Each region lies inside the register file (R11). -/
theorem region_inside_regFile {p : Params} (h : p.WellFormed) (r : Region) :
    regionBase p r + regionCap p r ≤ p.regFileWords := by
  obtain ⟨⟨hctx, hsh, huc⟩, -⟩ := h
  cases r
  · exact hctx
  · exact hsh
  · exact huc

/-- A word at a draw-state index lies inside the register file (R11). -/
theorem RegFile.Canonical.write_drawIndex {rf : RegFile} {p : Params} (h : rf.Canonical p.regFileWords)
    (hp : p.WellFormed) {i : Nat} (hi : i ∈ p.drawIndices) (w : Word) : (rf.write i [w]).Canonical p.regFileWords := by
  obtain ⟨-, -, -, hinside, -⟩ := hp
  exact h.write i [w] (hinside i hi)

/-- Every handler writes registers inside its region or at draw-state indices. -/
theorem packetEnd_rf_canonical (i : Instr) (s u : State) (h : PacketEnd i s u) (hp : s.params.WellFormed)
    (hrf : s.rf.Canonical s.params.regFileWords) : u.rf.Canonical s.params.regFileWords := by
  cases h with
  | regs r off ws _ hb =>
    have hregion := region_inside_regFile hp r
    exact hrf.write _ ws (by omega)
  | indexType => exact hrf.write_drawIndex hp (by simp [Params.drawIndices]) _
  | indexed =>
    exact ((((hrf.write_drawIndex hp (by simp [Params.drawIndices]) _).write_drawIndex hp
      (by simp [Params.drawIndices]) _).write_drawIndex hp (by simp [Params.drawIndices]) _).write_drawIndex hp
      (by simp [Params.drawIndices]) _).write_drawIndex hp (by simp [Params.drawIndices]) _
  | auto =>
    exact (hrf.write_drawIndex hp (by simp [Params.drawIndices]) _).write_drawIndex hp (by simp [Params.drawIndices]) _
  | _ => exact hrf

/-- What is admitted lies in the 64-bit address space (R50, R52). -/
theorem State.le_of_admits {s : State} {addr n : Nat} (h : s.admits addr n = true) : addr + n ≤ 2 ^ 64 := by
  rw [State.admits, Bool.and_eq_true, decide_eq_true_eq] at h
  exact h.1

theorem packetEnd_mem_canonical (i : Instr) (s u : State) (h : PacketEnd i s u) (hm : s.mem.Canonical) :
    u.mem.Canonical := by
  rcases packetEnd_mem i s u h with hsame | ⟨-, hwrite, hadm, -⟩
  · exact hsame ▸ hm
  · rw [hwrite]
    exact hm.write _ _ (by rw [StoreData.bytes_length]; exact State.le_of_admits hadm)

theorem step_canonical (s t : State) (h : step s = .next t) (hp : s.params.WellFormed) (hm : s.mem.Canonical)
    (hrf : s.rf.Canonical s.params.regFileWords) : t.mem.Canonical ∧ t.rf.Canonical s.params.regFileWords := by
  rcases step_storage s t h with ⟨htrf, htm⟩ | ⟨i, u, -, hend, htrf, htm⟩
  · exact ⟨htm ▸ hm, htrf ▸ hrf⟩
  · exact ⟨htm ▸ packetEnd_mem_canonical i s u hend hm, htrf ▸ packetEnd_rf_canonical i s u hend hp hrf⟩

/-! ## Steps -/

theorem State.Inv.mem_canonical {s : State} (h : s.Inv) : s.mem.Canonical := ⟨h.mem, h.memInside⟩

theorem State.Inv.rf_canonical {s : State} (h : s.Inv) : s.rf.Canonical s.params.regFileWords := ⟨h.rf, h.rfInside⟩

theorem State.Inv.not_halted {s : State} (h : s.Inv) (hp : s.phase ≠ .faulted) : s.halted = false := by
  rw [← Bool.not_eq_true, h.halted]
  exact hp

/-- A packet that completes keeps the invariant, given the canonical forms. -/
theorem State.Inv.of_completed {s t : State} (h : s.Inv) (hp : s.phase = .scanning) {i : Instr} {events : List Event}
    (hfits : s.Fits i) (hquiet : ∀ e ∈ events, e.isFault = false) (hdone : Completed s i.count events t)
    (hm : t.mem.Canonical) (hrf : t.rf.Canonical s.params.regFileWords) : t.Inv := by
  have hnf : s.phase ≠ .faulted := by simp [hp]
  have htnf := hdone.phase_ne_faulted hp
  have hcursor := hdone.cursor
  have hinside : t.cursor.toNat ≤ t.streamLen.toNat := by
    rw [hcursor, hdone.streamLen]
    exact hfits
  refine
    { params := hdone.params ▸ h.params
      mem := hm.1
      memInside := hm.2
      rf := hrf.1
      rfInside := hdone.params ▸ hrf.2
      cursorAligned := ?aligned
      cursorInside := hinside
      scanning := ?scanning
      done := ?done
      shape := fun _ => ?shape
      halted := ⟨fun hh => ?halted, fun hf => absurd hf htnf⟩
      faultRec := fun _ => hdone.faultRec.trans (h.faultRec hnf)
      faultTrace := fun hf => absurd hf htnf
      noFault := fun _ => ?noFault
      idle := ?idle }
  case aligned =>
    have := h.cursorAligned
    omega
  case scanning =>
    intro hscan
    rcases hdone.phase_cases hp with ⟨hend, -⟩ | ⟨-, hne⟩
    · simp [hend] at hscan
    · omega
  case done =>
    intro hend
    rcases hdone.phase_cases hp with ⟨-, heq⟩ | ⟨hscan, -⟩
    · exact heq
    · simp [hscan] at hend
  case shape =>
    rw [hdone.streamBase, hdone.streamLen]
    exact h.shape hnf
  case halted =>
    rw [hdone.halted, h.not_halted hnf] at hh
    cases hh
  case noFault =>
    intro e he
    rw [hdone.trace, List.mem_append, List.mem_append] at he
    rcases he with (he | he) | he
    · exact h.noFault hnf e he
    · exact hquiet e he
    · split at he
      · rw [List.mem_singleton.mp he]
        rfl
      · cases he
  case idle =>
    intro hidle
    rcases hdone.phase_cases hp with ⟨hend, -⟩ | ⟨hscan, -⟩
    · simp [hend] at hidle
    · simp [hscan] at hidle

/-- A fault's entry, from a state that had not faulted, keeps the invariant, given the canonical forms and the cursor's
place in the stream: of a faulted decoder it asks no more of the stream. -/
theorem State.Inv.of_faultEntered {s t : State} {events : List Event} {cause : FaultCause} {hdr : Word} {value : DWord}
    {n : BitVec 14} (hfault : FaultEntered s events cause hdr value n t) (hp : s.params.WellFormed)
    (htrace : ∀ e ∈ s.trace ++ events, e.isFault = false) (haligned : s.cursor.toNat % 4 = 0)
    (hinside : s.cursor.toNat ≤ s.streamLen.toNat) (hm : t.mem.Canonical) (hrf : t.rf.Canonical s.params.regFileWords) :
    t.Inv where
  params := hfault.params ▸ hp
  mem := hm.1
  memInside := hm.2
  rf := hrf.1
  rfInside := hfault.params ▸ hrf.2
  cursorAligned := hfault.cursor ▸ haligned
  cursorInside := by rwa [hfault.cursor, hfault.streamLen]
  scanning hscan := by simp [hfault.phase] at hscan
  done hend := by simp [hfault.phase] at hend
  shape hnf := absurd hfault.phase hnf
  halted := ⟨fun _ => hfault.phase, fun _ => hfault.halted⟩
  faultRec hnf := absurd hfault.phase hnf
  faultTrace _ := ⟨_, _, hfault.faultRec, hfault.trace, htrace⟩
  noFault hnf := absurd hfault.phase hnf
  idle hidle := by simp [hfault.phase] at hidle

theorem step_keeps_inv (s t : State) (hinv : s.Inv) (h : step s = .next t) : t.Inv := by
  obtain ⟨hm, hrf⟩ := step_canonical s t h hinv.params hinv.mem_canonical hinv.rf_canonical
  obtain ⟨hp, ⟨i, events, -, hfits, hquiet, hdone⟩ | ⟨cause, value, n, events, hquiet, hfault⟩⟩ := step_outcome s t h
  case completed =>
    refine hinv.of_completed hp hfits ?_ hdone hm hrf
    rw [List.forall_mem_cons]
    exact ⟨rfl, fun e he => (hquiet e he).1⟩
  case faulted =>
    refine .of_faultEntered hfault hinv.params ?_ hinv.cursorAligned hinv.cursorInside hm hrf
    rw [List.forall_mem_append]
    exact ⟨hinv.noFault (by simp [hp]), hquiet⟩

/-- Settles O36: by what the step is, a packet that completes or a fault entered. -/
theorem stepsKeepTheInvariant : Obligations.StepsKeepTheInvariant := by
  unfold Obligations.StepsKeepTheInvariant
  exact step_keeps_inv

/-! ## Reset and the host -/

theorem reset_inv (p : Params) (m : Memory) (hp : p.WellFormed) (hm : m.Canonical) :
    { State.reset with params := p, mem := m }.Inv where
  params := hp
  mem := hm.1
  memInside := hm.2
  rf := List.Pairwise.nil
  rfInside := by simp [State.reset]
  cursorAligned := rfl
  cursorInside := le_rfl
  scanning h := by cases h
  done h := by cases h
  shape _ := ⟨rfl, rfl, Nat.zero_le _⟩
  halted := ⟨fun h => (by cases h), fun h => (by cases h)⟩
  faultRec _ := rfl
  faultTrace h := by cases h
  noFault _ := by simp [State.reset]
  idle _ := rfl

/-- Settles O38: the default parameters are valid, and memory that lists nothing is canonical. -/
theorem resetHasTheInvariant : Obligations.ResetHasTheInvariant := by
  unfold Obligations.ResetHasTheInvariant
  refine ⟨reset_inv Params.standard [] defaultParametersAreValid.1 ⟨⟨List.Pairwise.nil, ?_⟩, ?_⟩,
    fun p m hp hm hi => reset_inv p m hp ⟨hm, hi⟩⟩ <;> simp

/-- A decoder that has not faulted and is put on a stream `[b, b + l)` of a good shape, at offset 0: done where the
stream is empty, scanning where it is not. -/
theorem State.Inv.on_stream {s : State} (h : s.Inv) (hnf : s.phase ≠ .faulted) (b : DWord) (l : BitVec 32)
    (hshape : streamShapeOk b l = true) (phase : Phase)
    (hphase : (l = 0#32 ∧ phase = .done) ∨ (l ≠ 0#32 ∧ phase = .scanning)) (added : List Event)
    (hadded : ∀ e ∈ added, e.isFault = false) :
    { s.latchStream b l with phase := phase, trace := s.trace ++ added }.Inv := by
  obtain ⟨hnfaulted, hnidle⟩ : phase ≠ .faulted ∧ phase ≠ .idle := by
    rcases hphase with ⟨-, rfl⟩ | ⟨-, rfl⟩ <;> decide
  refine
    { h with
      cursorAligned := rfl
      cursorInside := Nat.zero_le _
      scanning := fun hscan => ?scanning
      done := fun hdone => ?done
      shape := fun _ => (streamShapeOk_eq_true b l).mp hshape
      halted := ⟨fun hh => absurd (h.halted.mp hh) hnf, fun hf => absurd hf hnfaulted⟩
      faultRec := fun _ => h.faultRec hnf
      faultTrace := fun hf => absurd hf hnfaulted
      noFault := fun _ => List.forall_mem_append.mpr ⟨h.noFault hnf, hadded⟩
      idle := fun hidle => absurd hidle hnidle }
  case scanning =>
    rcases hphase with ⟨-, rfl⟩ | ⟨hl, -⟩
    · cases hscan
    · exact Nat.pos_of_ne_zero fun hzero => hl (BitVec.eq_of_toNat_eq hzero)
  case done =>
    rcases hphase with ⟨hl, -⟩ | ⟨-, rfl⟩
    · exact hl.symm
    · cases hdone

/-- All that an accepted `Start` can do (R100). -/
theorem start_cases (s t : State) (b : DWord) (l : BitVec 32) (h : s.start b l = .accepted t) :
    s.halted = false ∧ s.phase ≠ .scanning ∧
      ((streamShapeOk b l = false ∧ t = (s.latchStream b l).raise .streamShapeInvalid 0#32 (l.setWidth 64) 0#14) ∨
        (streamShapeOk b l = true ∧ l = 0#32 ∧
          t = { s.latchStream b l with phase := .done }.emit (.streamDone 0#32)) ∨
        (streamShapeOk b l = true ∧ l ≠ 0#32 ∧ t = { s.latchStream b l with phase := .scanning })) := by
  by_cases hready : s.halted = true ∨ s.phase = .scanning
  · cases (start_refused s b l hready).symm.trans h
  · obtain ⟨hh, hp⟩ : s.halted = false ∧ s.phase ≠ .scanning := by simpa using hready
    refine ⟨hh, hp, ?_⟩
    cases hshape : streamShapeOk b l with
    | false =>
      cases (start_badShape s b l hh hp hshape).symm.trans h
      exact .inl ⟨rfl, rfl⟩
    | true =>
      by_cases hl : l = 0#32
      · subst hl
        cases (start_empty s b hh hp hshape).symm.trans h
        exact .inr (.inl ⟨rfl, rfl, rfl⟩)
      · cases (start_scans s b l hh hp hshape hl).symm.trans h
        exact .inr (.inr ⟨rfl, hl, rfl⟩)

theorem start_keeps_inv (s t : State) (b : DWord) (l : BitVec 32) (hinv : s.Inv) (h : s.start b l = .accepted t) :
    t.Inv := by
  obtain ⟨hh, -, hcases⟩ := start_cases s t b l h
  have hnf : s.phase ≠ .faulted := fun hf => by simp [hinv.halted.mpr hf] at hh
  rcases hcases with ⟨-, rfl⟩ | ⟨hshape, hl, rfl⟩ | ⟨hshape, hl, rfl⟩
  · refine .of_faultEntered (raise_enters_fault (s.latchStream b l) _ _ _ _).1 hinv.params ?_ rfl (Nat.zero_le _)
      hinv.mem_canonical hinv.rf_canonical
    rw [List.append_nil]
    exact hinv.noFault hnf
  · exact hinv.on_stream hnf b l hshape .done (.inl ⟨hl, rfl⟩) [.streamDone 0#32] (by simp [Event.isFault])
  · have hscans := hinv.on_stream hnf b l hshape .scanning (.inr ⟨hl, rfl⟩) [] (by simp)
    rwa [List.append_nil] at hscans

theorem registerSink_keeps_inv (s t : State) (hinv : s.Inv) (h : s.registerSink = .accepted t) : t.Inv := by
  rw [State.registerSink] at h
  split at h
  · cases h
  · cases h
    exact { hinv with }

/-- A host store lies in the 64-bit address space, and it changes memory alone. -/
theorem hostStore_cases (s t : State) (a : Nat) (bs : List Byte) (h : s.hostStore a bs = .accepted t) :
    a + bs.length ≤ 2 ^ 64 ∧ t = { s with mem := s.mem.write a bs } := by
  rw [State.hostStore] at h
  split at h
  · next hduty =>
    cases h
    exact ⟨hduty.1, rfl⟩
  · cases h

theorem hostStore_keeps_inv (s t : State) (a : Nat) (bs : List Byte) (hinv : s.Inv)
    (h : s.hostStore a bs = .accepted t) : t.Inv := by
  obtain ⟨hb, rfl⟩ := hostStore_cases s t a bs h
  obtain ⟨hm, hi⟩ := hinv.mem_canonical.write a bs hb
  exact { hinv with mem := hm, memInside := hi }

theorem resetDecoder_inv (s : State) (hinv : s.Inv) : s.resetDecoder.Inv :=
  reset_inv s.params s.mem hinv.params hinv.mem_canonical

/-- Settles O37: one lemma per transaction. -/
theorem hostTransactionsKeepTheInvariant : Obligations.HostTransactionsKeepTheInvariant := by
  unfold Obligations.HostTransactionsKeepTheInvariant
  exact fun s hinv => ⟨fun b l t => start_keeps_inv s t b l hinv, fun t => registerSink_keeps_inv s t hinv,
    fun a bs t => hostStore_keeps_inv s t a bs hinv, resetDecoder_inv s hinv⟩

/-! ## Reachable states -/

theorem reachable_inv (s : State) (h : Reachable s) : s.Inv := by
  induction h with
  | reset p m hp hm hi => exact reset_inv p m hp ⟨hm, hi⟩
  | step s t _ ht ih => exact step_keeps_inv s t ih ht
  | start s t b l _ ht ih => exact start_keeps_inv s t b l ih ht
  | registerSink s t _ ht ih => exact registerSink_keeps_inv s t ih ht
  | hostStore s t a bs _ ht ih => exact hostStore_keeps_inv s t a bs ih ht
  | resetDecoder s _ ih => exact resetDecoder_inv s ih

theorem countP_isFault_eq_zero {events : List Event} (h : ∀ e ∈ events, e.isFault = false) :
    events.countP Event.isFault = 0 :=
  List.countP_eq_zero.mpr fun e he => by simp [h e he]

/-- The invariant counts the faults: the one the trace ends in where the decoder is halted, else none. -/
theorem State.Inv.countP_isFault {s : State} (h : s.Inv) :
    s.trace.countP Event.isFault = if s.halted = true then 1 else 0 := by
  by_cases hf : s.phase = .faulted
  · obtain ⟨r, pre, -, htrace, hpre⟩ := h.faultTrace hf
    rw [if_pos (h.halted.mpr hf), htrace, List.countP_append, countP_isFault_eq_zero hpre]
    rfl
  · rw [if_neg (mt h.halted.mp hf), countP_isFault_eq_zero (h.noFault hf)]

/-- Settles O39: every reachable state has the invariant. -/
theorem atMostOneFaultPerReset : Obligations.AtMostOneFaultPerReset := by
  unfold Obligations.AtMostOneFaultPerReset
  exact fun s h => (reachable_inv s h).countP_isFault

end Sys2Proof.Machine

/-! SUPPORT. The interrupts of the trace (60_exceptions.md R233, R235): where an `Irq` stands, which packets emit one,
and how many. -/

namespace Sys2Proof.Machine

/-! ## Where an `Irq` stands -/

/-- The trace ends in the `Packet` and `WriteBack` events of an EVENT_WRITE_EOP. -/
def EndsInWriteBack (trace : List Event) : Prop :=
  ∃ before offset count addr d, trace = before ++ [.packet offset 0x47#8 count .eventWriteEop, .writeBack addr d]

/-- One more event keeps every `Irq` confirmed, if it is no `Irq` or it stands right after a write-back. -/
theorem IrqsConfirmed.concat {trace : List Event} (h : IrqsConfirmed trace) (e : Event)
    (he : e = .irq → EndsInWriteBack trace) : IrqsConfirmed (trace ++ [e]) := by
  intro pre post heq
  rcases List.eq_nil_or_concat post with rfl | ⟨init, last, rfl⟩
  · obtain ⟨rfl, hlast⟩ := List.append_inj' heq rfl
    exact he (List.cons.inj hlast).1
  · rw [List.concat_eq_append, ← List.cons_append, ← List.append_assoc] at heq
    exact h pre init (List.append_inj' heq rfl).1

theorem IrqsConfirmed.emit {s : State} (h : IrqsConfirmed s.trace) (e : Event) (he : e ≠ .irq) :
    IrqsConfirmed (s.emit e).trace :=
  h.concat e fun hirq => absurd hirq he

theorem IrqsConfirmed.raise {s : State} (h : IrqsConfirmed s.trace) (cause : FaultCause) (hdr : Word) (value : DWord)
    (n : BitVec 14) : IrqsConfirmed (s.raise cause hdr value n).trace :=
  h.emit (.fault _) (by simp)

theorem IrqsConfirmed.advance {s : State} (h : IrqsConfirmed s.trace) (n : Nat) :
    IrqsConfirmed (s.advance n).trace := by
  rw [State.advance_trace]
  split
  · exact h.emit (.streamDone _) (by simp)
  · exact h

/-- The events of EVENT_WRITE_EOP up to its write-back (R176). -/
theorem afterWriteBack_endsInWriteBack (i : Instr) (s : State) (hi : i.handler = .eventWriteEop) :
    EndsInWriteBack (s.emitPacket i).afterWriteBack.trace := by
  refine ⟨s.trace, s.cursor, i.count, (s.emitPacket i).eopAddr, (s.emitPacket i).eopStore, ?_⟩
  have hop : i.opcode = 0x47#8 := by
    rw [Instr.opcode, hi]
    rfl
  rw [State.afterWriteBack, State.emit_trace, State.emitPacket_trace, hop, hi, List.append_assoc]
  rfl

/-- A handler emits an `Irq` only right after its write-back. -/
theorem packetEnd_irqsConfirmed (i : Instr) (s u : State) (h : PacketEnd i s u) (hs : IrqsConfirmed s.trace) :
    IrqsConfirmed u.trace := by
  have hpacket : IrqsConfirmed (s.emitPacket i).trace := hs.emit _ (by simp)
  have hwrote : IrqsConfirmed (s.emitPacket i).afterWriteBack.trace := hpacket.concat (.writeBack _ _) (by simp)
  cases h with
  | plain => exact hpacket
  | regs => exact hpacket
  | indexType => exact hpacket
  | indexed =>
    rw [congrArg State.trace (drawIndex2Result_eq _)]
    exact hpacket.concat (.drawNotify _ _) (by simp)
  | auto =>
    rw [congrArg State.trace (drawIndexAutoResult_eq _)]
    exact hpacket.concat (.drawNotify _ _) (by simp)
  | wrote => exact hwrote
  | interrupted hi => exact hwrote.concat .irq fun _ => afterWriteBack_endsInWriteBack i s hi

/-- Settles O40: a step adds the events of one packet, and its end or its fault. -/
theorem irqsFollowTheirWriteBack : Obligations.IrqsFollowTheirWriteBack := by
  unfold Obligations.IrqsFollowTheirWriteBack
  intro s t hs h
  obtain ⟨-, -, ⟨r, -, rfl⟩ | ⟨i, -, hexec⟩⟩ := step_cases s t h
  · obtain ⟨cause, value, n, hraise⟩ := raiseReject_cases s s.headerWord r
    rw [hraise]
    exact hs.raise _ _ _ _
  · rcases exec_cases i s t hexec with ⟨-, rfl⟩ | ⟨-, u, hend, rfl | ⟨cause, value, rfl⟩⟩
    · exact hs.raise _ _ _ _
    · exact (packetEnd_irqsConfirmed i s u hend hs).advance _
    · exact (packetEnd_irqsConfirmed i s u hend hs).raise _ _ _ _

/-! ## How many -/

/-- The number of `Irq` events in the trace. -/
def State.irqs (s : State) : Nat := s.trace.countP Event.isIrq

theorem irqs_emit_irq (s : State) : (s.emit .irq).irqs = s.irqs + 1 := List.countP_append

theorem irqs_emit (s : State) (e : Event) (he : e.isIrq = false) : (s.emit e).irqs = s.irqs := by
  rw [State.irqs, State.emit_trace, List.countP_append, List.countP_singleton, he]
  rfl

@[simp] theorem irqs_emitPacket (s : State) (i : Instr) : (s.emitPacket i).irqs = s.irqs := irqs_emit s _ rfl

@[simp] theorem irqs_setReg (s : State) (k : Nat) (w : Word) : (s.setReg k w).irqs = s.irqs := by
  rw [State.irqs, State.setReg_trace, State.irqs]

@[simp] theorem irqs_setRegs (s : State) (k : Nat) (ws : List Word) : (s.setRegs k ws).irqs = s.irqs := by
  rw [State.irqs, State.setRegs_trace, State.irqs]

@[simp] theorem irqs_raise (s : State) (cause : FaultCause) (hdr : Word) (value : DWord) (n : BitVec 14) :
    (s.raise cause hdr value n).irqs = s.irqs := irqs_emit s (.fault _) rfl

@[simp] theorem irqs_advance (s : State) (n : Nat) : (s.advance n).irqs = s.irqs := by
  rw [State.irqs, State.advance_trace]
  split
  · exact irqs_emit s (.streamDone _) rfl
  · rfl

@[simp] theorem irqs_afterWriteBack (s : State) : s.afterWriteBack.irqs = s.irqs := irqs_emit _ (.writeBack _ _) rfl

@[simp] theorem irqs_drawIndex2Result (s : State) : (drawIndex2Result s).irqs = s.irqs := by
  rw [drawIndex2Result, State.notifyDraw, irqs_emit _ _ rfl]
  simp only [State.stageIndexed, irqs_setReg]

@[simp] theorem irqs_drawIndexAutoResult (s : State) : (drawIndexAutoResult s).irqs = s.irqs := by
  rw [drawIndexAutoResult, State.notifyDraw, irqs_emit _ _ rfl]
  simp only [State.stageAuto, irqs_setReg]

/-- No handler but EVENT_WRITE_EOP's emits an `Irq`. -/
theorem packetEnd_irqs (i : Instr) (s u : State) (h : PacketEnd i s u) (hi : i.handler ≠ .eventWriteEop) :
    u.irqs = s.irqs := by
  cases h with
  | plain => exact irqs_emitPacket s i
  | regs => rw [irqs_setRegs, irqs_emitPacket]
  | indexType => rw [irqs_setReg, irqs_emitPacket]
  | indexed => rw [irqs_drawIndex2Result, irqs_emitPacket]
  | auto => rw [irqs_drawIndexAutoResult, irqs_emitPacket]
  | wrote heop => exact absurd heop hi
  | interrupted heop => exact absurd heop hi

/-! ## The interrupt of a completed EVENT_WRITE_EOP -/

/-- What a sequence of reads and checks answers, each of its parts answered. -/
theorem ok_of_bind_ok {α β : Type} {x : Except Stop α} {f : α → Except Stop β} {b : β} (h : x >>= f = .ok b) :
    ∃ a, x = .ok a ∧ f a = .ok b := by
  cases x with
  | error e => cases h
  | ok a => exact ⟨a, rfl, h⟩

theorem payload_eq_ok {s : State} {k : Nat} {w : Word} (h : s.payload k = .ok w) : w = s.packetWord k := by
  rcases payload_cases s k with hk | ⟨f, hk⟩
  · exact (Except.ok.inj (hk.symm.trans h)).symm
  · cases hk.symm.trans h

theorem eopData_eq_ok {s : State} {d : StoreData} (h : s.eopData (dataSel (s.packetWord 3)) = .ok d) :
    d = s.eopStore := by
  rcases eopData_cases s with hd | ⟨f, hd⟩
  · exact (Except.ok.inj (hd.symm.trans h)).symm
  · cases hd.symm.trans h

theorem writeBack_eq_ok {s t : State} (h : s.writeBack s.eopAddr s.eopStore = .ok t) : t = s.afterWriteBack := by
  rcases writeBack_cases s with ⟨-, ht⟩ | ⟨f, ht⟩
  · exact (Except.ok.inj (ht.symm.trans h)).symm
  · cases ht.symm.trans h

/-- EVENT_WRITE_EOP ends where the interrupt step after its write-back does (R170). -/
theorem eventWriteEopHandler_eq_ok {count : BitVec 14} {s u : State} (h : eventWriteEopHandler count s = .ok u) :
    s.afterWriteBack.confirmInterrupt (intSel (s.packetWord 3)) = .ok u := by
  obtain ⟨_, -, h⟩ := ok_of_bind_ok h
  obtain ⟨w3, hw3, h⟩ := ok_of_bind_ok h
  obtain ⟨w2, hw2, h⟩ := ok_of_bind_ok h
  cases payload_eq_ok hw3
  cases payload_eq_ok hw2
  obtain ⟨_, -, h⟩ := ok_of_bind_ok h
  obtain ⟨_, -, h⟩ := ok_of_bind_ok h
  obtain ⟨_, -, h⟩ := ok_of_bind_ok h
  obtain ⟨d, hd, h⟩ := ok_of_bind_ok h
  cases eopData_eq_ok hd
  obtain ⟨t, ht, h⟩ := ok_of_bind_ok h
  cases writeBack_eq_ok ht
  exact h

/-- The interrupt step ends with one `Irq` for `INT_SEL` 2, which asks for a sink, and with none otherwise (R178). -/
theorem confirmInterrupt_eq_ok {s u : State} {isel : BitVec 2} (h : s.confirmInterrupt isel = .ok u) :
    (isel = 2#2 ∧ s.sinkRegistered = true ∧ u = s.emit .irq) ∨ (isel ≠ 2#2 ∧ u = s) := by
  cases hvalid : validIntSel isel with
  | false => cases (confirmInterrupt_invalid s isel hvalid).symm.trans h
  | true =>
    have hsel : isel = 0#2 ∨ isel = 2#2 := by simpa [validIntSel] using hvalid
    rcases hsel with rfl | rfl
    · exact .inr ⟨by decide, (Except.ok.inj ((confirmInterrupt_none s).symm.trans h)).symm⟩
    · cases hsink : s.sinkRegistered with
      | false => cases (confirmInterrupt_missing s hsink).symm.trans h
      | true => exact .inl ⟨rfl, rfl, (Except.ok.inj ((confirmInterrupt_irq s hsink).symm.trans h)).symm⟩

/-- The packet is an EVENT_WRITE_EOP with `INT_SEL` 2 that completes. -/
structure Interrupts (i : Instr) (s t : State) : Prop where
  handler : i.handler = .eventWriteEop
  completes : t.phase ≠ .faulted
  select : intSel (s.packetWord 3) = 2#2

/-- What a packet adds to the number of interrupts: one, which asks for a sink, or none. -/
def CountsIrq (i : Instr) (s t : State) : Prop :=
  (Interrupts i s t ∧ s.sinkRegistered = true ∧ t.irqs = s.irqs + 1) ∨ (¬ Interrupts i s t ∧ t.irqs = s.irqs)

/-- A fault emits no `Irq`, wherever it is raised from. -/
theorem countsIrq_raise (i : Instr) {s u : State} (hu : u.irqs = s.irqs) (cause : FaultCause) (hdr : Word)
    (value : DWord) (n : BitVec 14) : CountsIrq i s (u.raise cause hdr value n) :=
  .inr ⟨fun hint => hint.completes rfl, (irqs_raise ..).trans hu⟩

/-- EVENT_WRITE_EOP raises before its `Irq`. -/
theorem eventWriteEopHandler_raised_irqs {count : BitVec 14} {s u : State} {cause : FaultCause} {value : DWord}
    (h : eventWriteEopHandler count s = .error (.raised u cause value)) : u.irqs = s.irqs := by
  rcases eventWriteEopHandler_cases count s with ⟨f, v, hr⟩ | ⟨f, hr⟩ | ⟨-, -, ⟨f, v, hr⟩ | hr | hr⟩
  · cases hr.symm.trans h
    rfl
  · cases hr.symm.trans h
  · cases hr.symm.trans h
    exact irqs_afterWriteBack s
  · cases hr.symm.trans h
  · cases hr.symm.trans h

theorem exec_eventWriteEop_countsIrq (count : BitVec 14) (s t : State) (hp : s.phase ≠ .faulted)
    (h : exec (.eventWriteEop count) s = .next t) : CountsIrq (.eventWriteEop count) s t := by
  rcases runPacket_cases _ _ s t h with ⟨-, rfl⟩ | ⟨-, u, hu, rfl⟩ | ⟨-, u, cause, value, hu, rfl⟩
  · exact countsIrq_raise _ rfl _ _ _ _
  · rcases confirmInterrupt_eq_ok (eventWriteEopHandler_eq_ok hu) with ⟨hsel, hsink, rfl⟩ | ⟨hsel, rfl⟩
    · refine .inl ⟨⟨rfl, advance_phase_ne_faulted _ _ hp, hsel⟩, hsink, ?_⟩
      rw [irqs_advance, irqs_emit_irq, irqs_afterWriteBack, irqs_emitPacket]
    · refine .inr ⟨fun hint => hsel hint.select, ?_⟩
      rw [irqs_advance, irqs_afterWriteBack, irqs_emitPacket]
  · exact countsIrq_raise _ ((eventWriteEopHandler_raised_irqs hu).trans (irqs_emitPacket s _)) _ _ _ _

theorem exec_countsIrq_of_not_eop (i : Instr) (s t : State) (hi : i.handler ≠ .eventWriteEop)
    (h : exec i s = .next t) : CountsIrq i s t := by
  refine .inr ⟨fun hint => hi hint.handler, ?_⟩
  rcases exec_cases i s t h with ⟨-, rfl⟩ | ⟨-, u, hend, rfl | ⟨cause, value, rfl⟩⟩
  · exact irqs_raise ..
  · exact (irqs_advance ..).trans (packetEnd_irqs i s u hend hi)
  · exact (irqs_raise ..).trans (packetEnd_irqs i s u hend hi)

theorem exec_countsIrq (i : Instr) (s t : State) (hp : s.phase ≠ .faulted) (h : exec i s = .next t) :
    CountsIrq i s t := by
  cases i
  case eventWriteEop count => exact exec_eventWriteEop_countsIrq count s t hp h
  all_goals exact exec_countsIrq_of_not_eop _ s t (by simp [Instr.handler]) h

/-- A step counts as its packet does, and a rejected header emits no `Irq`. -/
theorem step_countsIrq (s t : State) (h : step s = .next t) :
    (∃ i, decodeHeader s.headerWord = .ok i ∧ CountsIrq i s t) ∨
      ((∀ i, decodeHeader s.headerWord ≠ .ok i) ∧ t.irqs = s.irqs) := by
  obtain ⟨hp, -, ⟨r, hr, rfl⟩ | ⟨i, hi, hexec⟩⟩ := step_cases s t h
  · obtain ⟨cause, value, n, hraise⟩ := raiseReject_cases s s.headerWord r
    refine .inr ⟨fun i hi => (nomatch hr.symm.trans hi), ?_⟩
    rw [hraise]
    exact irqs_raise ..
  · exact .inl ⟨i, hi, exec_countsIrq i s t (by simp [hp]) hexec⟩

/-- Settles O29: the events a step adds are those by which the traces differ, so their count is the difference of the
counts. -/
theorem interruptsComeFromEopOnly : Obligations.InterruptsComeFromEopOnly := by
  unfold Obligations.InterruptsComeFromEopOnly
  intro s t h
  obtain ⟨-, -, -, -, ⟨events, htrace⟩, -⟩ := stepsKeepTheControlState s t h
  have hcount : t.irqs = s.irqs + events.countP Event.isIrq := by
    rw [State.irqs, htrace, List.countP_append]
    rfl
  refine ⟨events, htrace, ?_⟩
  simp only [← intSel_eq_iff _ 2 (by decide)]
  rcases step_countsIrq s t h with ⟨i, hi, ⟨hint, hsink, hone⟩ | ⟨hnot, hnone⟩⟩ | ⟨hreject, hnone⟩
  · exact ⟨fun _ _ _ _ _ => by omega, fun _ => ⟨⟨i, hi, hint.handler⟩, hint.completes, hint.select, hsink⟩⟩
  · refine ⟨fun j hj heop hphase hsel => ?_, fun hpos => by omega⟩
    cases hi.symm.trans hj
    exact absurd ⟨heop, hphase, hsel⟩ hnot
  · exact ⟨fun j hj => absurd hj (hreject j), fun hpos => by omega⟩

end Sys2Proof.Machine

/-! SUPPORT. Round-trip completeness (40_dispatcher.md R112): the packets of the trace tile the stream up to the
cursor. -/

namespace Sys2Proof.Machine

/-! ## Tilings -/

theorem tiledFrom_append (at_ : Nat) (xs ys : List Event) :
    tiledFrom at_ (xs ++ ys) = (tiledFrom at_ xs).bind fun mid => tiledFrom mid ys := by
  fun_induction tiledFrom at_ xs with
  | case1 => rfl
  | case2 offset op count h es ih => rw [List.cons_append, tiledFrom, if_pos rfl, ih]
  | case3 at_ offset op count h es hoff => rw [List.cons_append, tiledFrom, if_neg hoff]; rfl
  | case4 at_ e es hne ih => rw [List.cons_append, tiledFrom, ih]; exact hne

/-- Events that are no `Packet` move nothing. -/
theorem tiledFrom_quiet (at_ : Nat) (events : List Event) (h : ∀ e ∈ events, e.isPacket = false) :
    tiledFrom at_ events = some at_ := by
  induction events with
  | nil => rfl
  | cons e es ih =>
    rw [List.forall_mem_cons] at h
    cases e with
    | packet => cases h.1
    | _ => exact ih h.2

/-- A `Packet` event at the place reached, and others that are none, move it past the packet (R74). -/
theorem tiledFrom_packet (offset : BitVec 32) (op : BitVec 8) (count : BitVec 14) (hd : Handler) (events : List Event)
    (h : ∀ e ∈ events, e.isPacket = false) :
    tiledFrom offset.toNat (.packet offset op count hd :: events) = some (offset.toNat + 4 * (count.toNat + 1)) := by
  rw [tiledFrom, if_pos rfl, tiledFrom_quiet _ _ h]

/-! ## Steps and `Start` -/

/-- A packet that completes adds its own tile, at the cursor. -/
theorem State.TiledSince.of_completed {pre : List Event} {s t : State} (h : s.TiledSince pre) (hp : s.phase = .scanning)
    {count : BitVec 14} {op : BitVec 8} {hd : Handler} {events : List Event} (hquiet : ∀ e ∈ events, e.isPacket = false)
    (hdone : Completed s count (.packet s.cursor op count hd :: events) t) : t.TiledSince pre := by
  intro _
  obtain ⟨before, htrace, htiled⟩ := h (by simp [hp])
  refine ⟨_, hdone.trace.trans (by rw [htrace, List.append_assoc, List.append_assoc]), ?_⟩
  rw [tiledFrom_append, htiled, Option.bind_some, List.cons_append, tiledFrom_packet, hdone.cursor]
  rw [List.forall_mem_append]
  refine ⟨hquiet, ?_⟩
  split <;> simp [Event.isPacket]

theorem step_keeps_tiledSince (pre : List Event) (s t : State) (hs : s.TiledSince pre) (h : step s = .next t) :
    t.TiledSince pre := by
  obtain ⟨hp, ⟨i, events, -, -, hquiet, hdone⟩ | ⟨cause, value, n, events, -, hfault⟩⟩ := step_outcome s t h
  case completed => exact hs.of_completed hp (fun e he => (hquiet e he).2) hdone
  case faulted => exact fun hnf => absurd hfault.phase hnf

/-- At offset 0, with no `Packet` event added, nothing is to be tiled. -/
theorem tiledSince_of_cursor_zero {pre : List Event} {s : State} (added : List Event) (htrace : s.trace = pre ++ added)
    (hquiet : ∀ e ∈ added, e.isPacket = false) (hcursor : s.cursor = 0#32) : s.TiledSince pre :=
  fun _ => ⟨added, htrace, by rw [tiledFrom_quiet 0 added hquiet, hcursor]; rfl⟩

theorem start_tiledSince (s t : State) (b : DWord) (l : BitVec 32) (h : s.start b l = .accepted t) :
    t.TiledSince s.trace := by
  obtain ⟨-, -, ⟨-, rfl⟩ | ⟨-, -, rfl⟩ | ⟨-, -, rfl⟩⟩ := start_cases s t b l h
  · exact fun hnf => absurd rfl hnf
  · exact tiledSince_of_cursor_zero [.streamDone 0#32] rfl (by simp [Event.isPacket]) rfl
  · exact tiledSince_of_cursor_zero [] (List.append_nil _).symm (by simp) rfl

/-- Settles O43: `Start` begins at offset 0, and a step adds a tile or faults. -/
theorem stepsKeepTheTiling : Obligations.StepsKeepTheTiling := by
  unfold Obligations.StepsKeepTheTiling
  exact ⟨start_tiledSince, step_keeps_tiledSince⟩

/-! ## Runs -/

/-- A run of one more step is a step and the run from there. -/
theorem run_succ_of_next {s u : State} (n : Nat) (h : step s = .next u) :
    Host.Core.run Sys2Proof.core (n + 1) s = Host.Core.run Sys2Proof.core n u := by
  have hcore : Sys2Proof.core.step s = .next u := h
  simp only [Host.Core.run, hcore]

/-- A run that gets past its first step has one. -/
theorem run_succ_next {n : Nat} {s t : State} (h : Host.Core.run Sys2Proof.core (n + 1) s = .next t) :
    ∃ u, step s = .next u ∧ Host.Core.run Sys2Proof.core n u = .next t := by
  cases hu : Sys2Proof.core.step s with
  | next u => exact ⟨u, hu, (run_succ_of_next n hu).symm.trans h⟩
  | fault f => simp only [Host.Core.run, hu, reduceCtorEq] at h
  | refused r => simp only [Host.Core.run, hu, reduceCtorEq] at h

/-- What every step keeps, a run of any number of steps keeps. -/
theorem run_keeps {P : State → Prop} (hstep : ∀ s t, P s → step s = .next t → P t) (n : Nat) (s t : State) (hs : P s)
    (h : Host.Core.run Sys2Proof.core n s = .next t) : P t := by
  induction n generalizing s with
  | zero =>
    cases h
    exact hs
  | succ n ih =>
    obtain ⟨u, hu, hrun⟩ := run_succ_next h
    exact ih u (hstep s u hs hu) hrun

/-- Of a run over a stream of length `len`, begun after the trace `pre`: the packets tile the stream up to the cursor,
and the cursor is at its end when it is done (R27). -/
structure Tiling (pre : List Event) (len : BitVec 32) (s : State) : Prop where
  tiled : s.TiledSince pre
  streamLen : s.streamLen = len
  done : s.phase = .done → s.cursor = len

theorem step_keeps_tiling (pre : List Event) (len : BitVec 32) (s t : State) (hs : Tiling pre len s)
    (h : step s = .next t) : Tiling pre len t := by
  obtain ⟨-, -, hlen, -⟩ := stepsKeepTheControlState s t h
  refine ⟨step_keeps_tiledSince pre s t hs.tiled h, hlen.trans hs.streamLen, fun hend => ?_⟩
  obtain ⟨hp, ⟨i, events, -, -, -, hdone⟩ | ⟨cause, value, n, events, -, hfault⟩⟩ := step_outcome s t h
  case completed =>
    rcases hdone.phase_cases hp with ⟨-, hcursor⟩ | ⟨hscan, -⟩
    · rw [hcursor, hlen, hs.streamLen]
    · simp [hscan] at hend
  case faulted => simp [hfault.phase] at hend

/-- Settles O41: the run keeps the tiling, and ends with the cursor at the end of the stream. -/
theorem completedStreamsAreTiled : Obligations.CompletedStreamsAreTiled := by
  unfold Obligations.CompletedStreamsAreTiled
  intro n s t hp hcursor hrun hend
  have hstart : Tiling s.trace s.streamLen s :=
    ⟨tiledSince_of_cursor_zero [] (List.append_nil _).symm (by simp) hcursor, rfl, fun hdone => by simp [hp] at hdone⟩
  have ht := run_keeps (step_keeps_tiling s.trace s.streamLen) n s t hstart hrun
  obtain ⟨events, htrace, htiled⟩ := ht.tiled (by simp [hend])
  exact ⟨events, htrace, by rw [htiled, ht.done hend]⟩

end Sys2Proof.Machine

/-! SUPPORT. Progress (40_dispatcher.md R113): a packet that fits has a next state wherever the words it reads and the
target it writes are valid memory, and so a stream ends. -/

namespace Sys2Proof.Machine

/-! ## Handlers that are not stuck -/

/-- The handler ends: it does not meet memory that is not admitted (R52). -/
def Unstuck (x : Except Stop State) : Prop := ∀ f, x ≠ .error (.stuck f)

theorem unstuck_ok {x : Except Stop State} {u : State} (h : x = .ok u) : Unstuck x := fun f hf => by
  cases h.symm.trans hf

theorem unstuck_raised {x : Except Stop State} {u : State} {cause : FaultCause} {value : DWord}
    (h : x = .error (.raised u cause value)) : Unstuck x := fun f hf => by
  cases h.symm.trans hf

/-- A packet whose handler ends has a next state, and so has one that overruns the stream. -/
theorem runPacket_next (i : Instr) (handler : State → Except Stop State) (s : State)
    (h : s.overruns i.count = false → Unstuck (handler (s.emitPacket i))) : ∃ t, runPacket i handler s = .next t := by
  cases ho : s.overruns i.count with
  | true => exact ⟨_, runPacket_overrun i handler s ho⟩
  | false =>
    cases hh : handler (s.emitPacket i) with
    | ok u => exact ⟨_, runPacket_ok i handler s u ho hh⟩
    | error e =>
      cases e with
      | raised u cause value => exact ⟨_, runPacket_raised i handler s u cause value ho hh⟩
      | stuck f => exact absurd hh (h ho f)

theorem confirmInterrupt_unstuck (t : State) (isel : BitVec 2) : Unstuck (t.confirmInterrupt isel) := by
  rcases confirmInterrupt_cases t isel with ⟨_, _, h⟩ | h | h
  · exact unstuck_raised h
  · exact unstuck_ok h
  · exact unstuck_ok h

section
variable (count : BitVec 14) (s : State) (ha : s.PayloadAdmitted count.toNat)
include ha

theorem setRegHandler_unstuck (r : Region) : Unstuck (setRegHandler r count s) := by
  cases hw : hasWords count 1 with
  | false => exact unstuck_raised (setRegHandler_malformed r count s hw)
  | true =>
    have hcount := (hasWords_eq_true count 1).mp hw
    have h1 := ha 1 le_rfl hcount
    cases hr : insideRegion s.params r (regOffset (s.packetWord 1)).toNat (count.toNat - 1) with
    | false => exact unstuck_raised (setRegHandler_outside r count s hw h1 hr)
    | true => exact unstuck_ok (setRegHandler_ok r count s hw h1 hr fun k hk => ha (2 + k) (by omega) (by omega))

theorem indexTypeHandler_unstuck : Unstuck (indexTypeHandler count s) := by
  cases hw : hasWords count 1 with
  | false => exact unstuck_raised (indexTypeHandler_malformed count s hw)
  | true => exact unstuck_ok (indexTypeHandler_ok count s hw (ha 1 le_rfl ((hasWords_eq_true count 1).mp hw)))

theorem drawIndex2Handler_unstuck : Unstuck (drawIndex2Handler count s) := by
  cases hw : hasWords count 5 with
  | false => exact unstuck_raised (drawIndex2Handler_malformed count s hw)
  | true =>
    have hcount := (hasWords_eq_true count 5).mp hw
    exact unstuck_ok (drawIndex2Handler_ok count s hw fun k h1 h5 => ha k h1 (h5.trans hcount))

theorem drawIndexAutoHandler_unstuck : Unstuck (drawIndexAutoHandler count s) := by
  cases hw : hasWords count 2 with
  | false => exact unstuck_raised (drawIndexAutoHandler_malformed count s hw)
  | true =>
    have hcount := (hasWords_eq_true count 2).mp hw
    exact unstuck_ok (drawIndexAutoHandler_ok count s hw fun k h1 h2 => ha k h1 (h2.trans hcount))

/-- EVENT_WRITE_EOP also writes: its target, checked to be aligned, is to be valid memory too. -/
theorem eventWriteEopHandler_unstuck
    (htarget : isAligned s.eopAddr (eopWidth (dataSel (s.packetWord 3))) = true →
      s.admits s.eopAddr.toNat (eopWidth (dataSel (s.packetWord 3))) = true) :
    Unstuck (eventWriteEopHandler count s) := by
  cases hw : hasWords count 5 with
  | false => exact unstuck_raised (eventWriteEopHandler_malformed count s hw)
  | true =>
  have hcount := (hasWords_eq_true count 5).mp hw
  have hword : ∀ k, 1 ≤ k → k ≤ 5 → s.admits (s.packetAddr k) 4 = true := fun k h1 h5 => ha k h1 (h5.trans hcount)
  have h2 := hword 2 (by decide) (by decide)
  have h3 := hword 3 (by decide) (by decide)
  cases hd : validDataSel (dataSel (s.packetWord 3)) with
  | false => exact unstuck_raised (eventWriteEopHandler_badData count s hw h2 h3 hd)
  | true =>
  cases hal : isAligned s.eopAddr (eopWidth (dataSel (s.packetWord 3))) with
  | false => exact unstuck_raised (eventWriteEopHandler_misaligned count s hw h2 h3 hd hal)
  | true =>
  cases hm : s.missesStream s.eopAddr.toNat (eopWidth (dataSel (s.packetWord 3))) with
  | false => exact unstuck_raised (eventWriteEopHandler_aliases count s hw h2 h3 hd hal hm)
  | true =>
    rw [eventWriteEopHandler_writes count s hw h2 h3 (hword 4 (by decide) (by decide))
      (fun _ => hword 5 (by decide) (by decide)) hd hal hm (htarget hal)]
    exact confirmInterrupt_unstuck _ _

end

/-! ## Memory without holes -/

/-- With no hole, all of the 64-bit address space is valid (R52). -/
theorem State.admits_of_no_holes {s : State} (h : s.params.holes = []) {addr n : Nat} (hle : addr + n ≤ 2 ^ 64) :
    s.admits addr n = true := by
  rw [State.admits, h, decide_eq_true hle]
  rfl

/-- Every word of a packet that lies inside a stream of good shape is then valid. -/
theorem packetAddr_admitted {s : State} (hholes : s.params.holes = [])
    (hshape : s.streamBase.toNat + s.streamLen.toNat ≤ 2 ^ 64) {k : Nat}
    (hk : s.cursor.toNat + 4 * k + 4 ≤ s.streamLen.toNat) : s.admits (s.packetAddr k) 4 = true := by
  refine State.admits_of_no_holes hholes ?_
  rw [State.packetAddr]
  omega

theorem State.Fits.payloadAdmitted {s : State} {i : Instr} (h : s.Fits i) (hholes : s.params.holes = [])
    (hshape : s.streamBase.toNat + s.streamLen.toNat ≤ 2 ^ 64) : s.PayloadAdmitted i.count.toNat := by
  intro k _ hk
  refine packetAddr_admitted hholes hshape ?_
  rw [State.Fits] at h
  omega

/-- A write-back aligned to its width, 4 or 8, does not reach past the end of the address space. -/
theorem aligned_target_le (addr : DWord) (dsel : BitVec 3) (h : isAligned addr (eopWidth dsel) = true) :
    addr.toNat + eopWidth dsel ≤ 2 ^ 64 := by
  have hlt := addr.isLt
  rw [isAligned_eq_true] at h
  rw [eopWidth] at h ⊢
  by_cases hsel : dsel = 1#3
  · rw [if_pos hsel] at h ⊢
    omega
  · rw [if_neg hsel] at h ⊢
    omega

/-- With no hole, every packet has a next state. -/
theorem exec_next (i : Instr) (s : State) (hholes : s.params.holes = [])
    (hshape : s.streamBase.toNat + s.streamLen.toNat ≤ 2 ^ 64) : ∃ t, exec i s = .next t := by
  have hpayload : s.overruns i.count = false → (s.emitPacket i).PayloadAdmitted i.count.toNat := fun ho =>
    ((fits_iff s i).mpr ho).payloadAdmitted hholes hshape
  cases i with
  | drawIndex2 c => exact runPacket_next _ _ s fun ho => drawIndex2Handler_unstuck c _ (hpayload ho)
  | indexType c => exact runPacket_next _ _ s fun ho => indexTypeHandler_unstuck c _ (hpayload ho)
  | drawIndexAuto c => exact runPacket_next _ _ s fun ho => drawIndexAutoHandler_unstuck c _ (hpayload ho)
  | eventWriteEop c =>
    exact runPacket_next _ _ s fun ho => eventWriteEopHandler_unstuck c _ (hpayload ho) fun hal =>
      State.admits_of_no_holes hholes (aligned_target_le _ _ hal)
  | setContextReg c => exact runPacket_next _ _ s fun ho => setRegHandler_unstuck c _ (hpayload ho) .ctx
  | setShReg c => exact runPacket_next _ _ s fun ho => setRegHandler_unstuck c _ (hpayload ho) .sh
  | setUconfigReg c => exact runPacket_next _ _ s fun ho => setRegHandler_unstuck c _ (hpayload ho) .uc
  | _ => exact runPacket_next _ _ s fun _ => unstuck_ok rfl

/-! ## Streams end -/

theorem step_next (s : State) (hinv : s.Inv) (hholes : s.params.holes = []) (hp : s.phase = .scanning) :
    ∃ t, step s = .next t := by
  obtain ⟨-, -, hshape⟩ := hinv.shape (by simp [hp])
  have ha : s.admits (s.packetAddr 0) 4 = true := packetAddr_admitted hholes hshape (hinv.header_inside hp)
  cases hd : decodeHeader s.headerWord with
  | error r => exact ⟨_, step_of_reject s r hp ha hd⟩
  | ok i =>
    rw [step_of_packet s i hp ha hd]
    exact exec_next i s hholes hshape

/-- Settles O44: there is a step, and one that does not fault advances. -/
theorem stepsMakeProgress : Obligations.StepsMakeProgress := by
  unfold Obligations.StepsMakeProgress
  intro s hinv hholes hp
  obtain ⟨t, ht⟩ := step_next s hinv hholes hp
  obtain ⟨-, -, -, -, -, hkept, -⟩ := stepsKeepTheControlState s t ht
  refine ⟨t, ht, or_iff_not_imp_left.mpr fun hnf => ?_⟩
  obtain ⟨-, -, hadvance⟩ := hkept hnf
  exact hadvance

/-- A step ends the stream or goes on scanning. -/
theorem step_phase_cases (s t : State) (h : step s = .next t) :
    (t.phase = .done ∨ t.phase = .faulted) ∨ t.phase = .scanning := by
  obtain ⟨hp, ⟨i, events, -, -, -, hdone⟩ | ⟨cause, value, n, events, -, hfault⟩⟩ := step_outcome s t h
  case completed =>
    rcases hdone.phase_cases hp with ⟨hend, -⟩ | ⟨hscan, -⟩
    · exact .inl (.inl hend)
    · exact .inr hscan
  case faulted => exact .inl (.inr hfault.phase)

/-- A stream with at most `m` words left ends within `m` steps: each step that does not end it uses up a word. -/
theorem stream_ends_within (m : Nat) (s : State) (hinv : s.Inv) (hholes : s.params.holes = [])
    (hp : s.phase = .scanning) (hleft : s.streamLen.toNat ≤ s.cursor.toNat + 4 * m) :
    ∃ n t, n ≤ m ∧ Host.Core.run Sys2Proof.core n s = .next t ∧ (t.phase = .done ∨ t.phase = .faulted) := by
  induction m generalizing s with
  | zero =>
    have := hinv.scanning hp
    omega
  | succ m ih =>
    obtain ⟨u, hu, hgoes⟩ := stepsMakeProgress s hinv hholes hp
    rcases step_phase_cases s u hu with hend | hscan
    · exact ⟨1, u, by omega, run_succ_of_next 0 hu, hend⟩
    · obtain ⟨hparams, -, hlen, -⟩ := stepsKeepTheControlState s u hu
      have hadvance : s.cursor.toNat + 4 ≤ u.cursor.toNat := hgoes.resolve_left (by simp [hscan])
      obtain ⟨n, t, hn, hrun, hend⟩ :=
        ih u (step_keeps_inv s u hinv hu) (hparams ▸ hholes) hscan (by rw [hlen]; omega)
      exact ⟨n + 1, t, by omega, (run_succ_of_next n hu).trans hrun, hend⟩

/-- Settles O42: `stream_len` is a multiple of 4, so `stream_len / 4` words are left at most. -/
theorem streamsTerminate : Obligations.StreamsTerminate := by
  unfold Obligations.StreamsTerminate
  intro s hinv hholes hp
  obtain ⟨-, hlen, -⟩ := hinv.shape (by simp [hp])
  exact stream_ends_within _ s hinv hholes hp (by omega)

end Sys2Proof.Machine

/-! SUPPORT. The register file steers nothing (70_reset_and_hazards.md R261): two decoders that agree on all but
registers and reported register values give the same answers, operation by operation. -/

namespace Sys2Proof.Machine

/-! ## The relation, kept by every operation on the state -/

/-- A state that agrees with `s` is `s` with another register file and another trace. -/
theorem AgreeButRegs.exists_update {s u : State} (h : AgreeButRegs s u) :
    ∃ rf trace, trace.map Event.withoutSnapshot = s.trace.map Event.withoutSnapshot ∧
      u = { s with rf := rf, trace := trace } :=
  ⟨u.rf, u.trace, h.2, congrArg (fun x : State => { x with rf := u.rf, trace := u.trace }) h.1⟩

/-- What looks at neither the register file nor the trace sees the same in both. -/
theorem AgreeButRegs.congr {α : Type} {s u : State} (h : AgreeButRegs s u) (f : State → α)
    (hf : ∀ x rf trace, f { x with rf := rf, trace := trace } = f x) : f u = f s := by
  obtain ⟨rf, trace, -, rfl⟩ := h.exists_update
  exact hf s rf trace

section
variable {s u : State} (h : AgreeButRegs s u)
include h

/-- The register files may be changed in any two ways. -/
theorem AgreeButRegs.update_rf (rf rf' : RegFile) : AgreeButRegs { s with rf := rf } { u with rf := rf' } := by
  obtain ⟨_, trace, htrace, rfl⟩ := h.exists_update
  exact ⟨rfl, htrace⟩

theorem AgreeButRegs.setReg (i i' : Nat) (w w' : Word) : AgreeButRegs (s.setReg i w) (u.setReg i' w') :=
  h.update_rf _ _

theorem AgreeButRegs.stageIndexed (w1 w2 w3 w4 w5 : Word) :
    AgreeButRegs (s.stageIndexed w1 w2 w3 w4 w5) (u.stageIndexed w1 w2 w3 w4 w5) :=
  ((((h.setReg _ _ w1 w1).setReg _ _ w2 w2).setReg _ _ w3 w3).setReg _ _ w4 w4).setReg _ _ w5 w5

theorem AgreeButRegs.stageAuto (w1 w2 : Word) : AgreeButRegs (s.stageAuto w1 w2) (u.stageAuto w1 w2) :=
  (h.setReg _ _ w1 w1).setReg _ _ w2 w2

theorem AgreeButRegs.update_mem (m : Memory) : AgreeButRegs { s with mem := m } { u with mem := m } := by
  obtain ⟨_, trace, htrace, rfl⟩ := h.exists_update
  exact ⟨rfl, htrace⟩

/-- The events may differ in their snapshots. -/
theorem AgreeButRegs.emit {e e' : Event} (he : e'.withoutSnapshot = e.withoutSnapshot) :
    AgreeButRegs (s.emit e) (u.emit e') := by
  obtain ⟨_, trace, htrace, rfl⟩ := h.exists_update
  refine ⟨rfl, ?_⟩
  simp only [State.emit_trace, List.map_append, List.map_cons, List.map_nil, htrace, he]

theorem AgreeButRegs.emitPacket (i : Instr) : AgreeButRegs (s.emitPacket i) (u.emitPacket i) := by
  obtain ⟨_, trace, htrace, rfl⟩ := h.exists_update
  exact AgreeButRegs.emit ⟨rfl, htrace⟩ rfl

theorem AgreeButRegs.notifyDraw (kind : DrawKind) : AgreeButRegs (s.notifyDraw kind) (u.notifyDraw kind) := h.emit rfl

theorem AgreeButRegs.raise (cause : FaultCause) (hdr : Word) (value : DWord) (n : BitVec 14) :
    AgreeButRegs (s.raise cause hdr value n) (u.raise cause hdr value n) := by
  obtain ⟨_, trace, htrace, rfl⟩ := h.exists_update
  refine ⟨rfl, ?_⟩
  simp only [State.raise_trace, List.map_append, htrace]
  rfl

theorem AgreeButRegs.raiseReject (hdr : Word) (r : HeaderReject) :
    AgreeButRegs (s.raiseReject hdr r) (u.raiseReject hdr r) := by
  cases r with
  | unsupportedFamily type => exact h.raise _ hdr _ _
  | unknownOpcode op count => exact h.raise _ hdr _ _

theorem AgreeButRegs.advance (n : Nat) : AgreeButRegs (s.advance n) (u.advance n) := by
  obtain ⟨_, trace, htrace, rfl⟩ := h.exists_update
  refine ⟨rfl, ?_⟩
  simp only [State.advance_trace]
  split
  · simp only [List.map_append, htrace]
  · exact htrace

end

/-! ## Answers that agree -/

/-- Two reads, checks or handlers answer alike: related values, the same fault raised from states that agree, or stuck
at the same access. -/
inductive SameAnswer {α : Type} (R : α → α → Prop) : Except Stop α → Except Stop α → Prop where
  | ok {a b : α} (h : R a b) : SameAnswer R (.ok a) (.ok b)
  | raised {s u : State} (cause : FaultCause) (value : DWord) (h : AgreeButRegs s u) :
      SameAnswer R (.error (.raised s cause value)) (.error (.raised u cause value))
  | stuck (f : Fault) : SameAnswer R (.error (.stuck f)) (.error (.stuck f))

/-- Answers alike, and what follows them alike. -/
theorem SameAnswer.bind {α β : Type} {R : α → α → Prop} {Q : β → β → Prop} {x y : Except Stop α}
    {f g : α → Except Stop β} (h : SameAnswer R x y) (hfg : ∀ a b, R a b → SameAnswer Q (f a) (g b)) :
    SameAnswer Q (x >>= f) (y >>= g) := by
  cases h with
  | ok hab => exact hfg _ _ hab
  | raised cause value hsu => exact .raised cause value hsu
  | stuck f => exact .stuck f

/-- The same, where both answer the same value. -/
theorem SameAnswer.bind_eq {α β : Type} {Q : β → β → Prop} {x y : Except Stop α} {f g : α → Except Stop β}
    (h : SameAnswer Eq x y) (hfg : ∀ a, SameAnswer Q (f a) (g a)) : SameAnswer Q (x >>= f) (y >>= g) :=
  h.bind fun a _ hab => hab ▸ hfg a

section
variable {s u : State} (h : AgreeButRegs s u)
include h

theorem sameAnswer_require (c : Bool) (cause : FaultCause) (value : DWord) :
    SameAnswer Eq (require c s cause value) (require c u cause value) := by
  cases c with
  | true => exact .ok rfl
  | false => exact .raised cause value h

/-- The packet is read from memory at the latches, on which the states agree. -/
theorem sameAnswer_payload (k : Nat) : SameAnswer Eq (s.payload k) (u.payload k) := by
  rw [h.congr (·.payload k) fun _ _ _ => rfl]
  rcases payload_cases s k with hk | ⟨f, hk⟩ <;> rw [hk]
  · exact .ok rfl
  · exact .stuck f

theorem sameAnswer_payloadBlock (first n : Nat) :
    SameAnswer Eq (s.payloadBlock first n) (u.payloadBlock first n) := by
  rw [h.congr (·.payloadBlock first n) fun _ _ _ => rfl]
  rcases payloadBlock_cases s first n with hk | ⟨f, hk⟩ <;> rw [hk]
  · exact .ok rfl
  · exact .stuck f

theorem sameAnswer_storeBytes (addr : Nat) (bs : List Byte) :
    SameAnswer AgreeButRegs (s.storeBytes addr bs) (u.storeBytes addr bs) := by
  have hadm : u.admits addr bs.length = s.admits addr bs.length := h.congr (·.admits addr bs.length) fun _ _ _ => rfl
  have hmem : u.mem = s.mem := h.congr State.mem fun _ _ _ => rfl
  rw [State.storeBytes, State.storeBytes, hadm, hmem]
  split
  · exact .ok (h.update_mem _)
  · exact .stuck _

/-! ## The handlers -/

theorem sameAnswer_setRegHandler (r : Region) (count : BitVec 14) :
    SameAnswer AgreeButRegs (setRegHandler r count s) (setRegHandler r count u) := by
  have hparams : u.params = s.params := h.congr State.params fun _ _ _ => rfl
  rw [setRegHandler, setRegHandler, hparams]
  refine (sameAnswer_require h _ _ _).bind_eq fun _ => (sameAnswer_payload h 1).bind_eq fun w1 => ?_
  refine (sameAnswer_require h _ _ _).bind_eq fun _ => (sameAnswer_payloadBlock h 2 _).bind_eq fun data => ?_
  exact .ok (h.update_rf _ _)

theorem sameAnswer_indexTypeHandler (count : BitVec 14) :
    SameAnswer AgreeButRegs (indexTypeHandler count s) (indexTypeHandler count u) :=
  (sameAnswer_require h _ _ _).bind_eq fun _ => (sameAnswer_payload h 1).bind_eq fun _ => .ok (h.setReg _ _ _ _)

theorem sameAnswer_drawIndex2Handler (count : BitVec 14) :
    SameAnswer AgreeButRegs (drawIndex2Handler count s) (drawIndex2Handler count u) :=
  (sameAnswer_require h _ _ _).bind_eq fun _ => (sameAnswer_payload h 1).bind_eq fun _ =>
    (sameAnswer_payload h 2).bind_eq fun _ => (sameAnswer_payload h 3).bind_eq fun _ =>
    (sameAnswer_payload h 4).bind_eq fun _ => (sameAnswer_payload h 5).bind_eq fun _ =>
    .ok ((h.stageIndexed _ _ _ _ _).notifyDraw .indexed)

theorem sameAnswer_drawIndexAutoHandler (count : BitVec 14) :
    SameAnswer AgreeButRegs (drawIndexAutoHandler count s) (drawIndexAutoHandler count u) :=
  (sameAnswer_require h _ _ _).bind_eq fun _ => (sameAnswer_payload h 1).bind_eq fun _ =>
    (sameAnswer_payload h 2).bind_eq fun _ => .ok ((h.stageAuto _ _).notifyDraw .auto)

theorem sameAnswer_eopData (dsel : BitVec 3) : SameAnswer Eq (s.eopData dsel) (u.eopData dsel) := by
  refine (sameAnswer_payload h 4).bind_eq fun w4 => ?_
  split
  · exact .ok rfl
  · exact (sameAnswer_payload h 5).bind_eq fun _ => .ok rfl

theorem sameAnswer_writeBack (addr : DWord) (d : StoreData) :
    SameAnswer AgreeButRegs (s.writeBack addr d) (u.writeBack addr d) :=
  (sameAnswer_storeBytes h _ _).bind fun _ _ hab => .ok (hab.emit rfl)

theorem sameAnswer_confirmInterrupt (isel : BitVec 2) :
    SameAnswer AgreeButRegs (s.confirmInterrupt isel) (u.confirmInterrupt isel) := by
  have hsink : u.sinkRegistered = s.sinkRegistered := h.congr State.sinkRegistered fun _ _ _ => rfl
  rw [State.confirmInterrupt, State.confirmInterrupt, hsink]
  refine (sameAnswer_require h _ _ _).bind_eq fun _ => ?_
  split
  · exact (sameAnswer_require h _ _ _).bind_eq fun _ => .ok (h.emit rfl)
  · exact .ok h

theorem sameAnswer_eventWriteEopHandler (count : BitVec 14) :
    SameAnswer AgreeButRegs (eventWriteEopHandler count s) (eventWriteEopHandler count u) := by
  have hparams : u.params = s.params := h.congr State.params fun _ _ _ => rfl
  have hmiss : ∀ addr w, u.missesStream addr w = s.missesStream addr w := fun addr w =>
    h.congr (·.missesStream addr w) fun _ _ _ => rfl
  simp only [eventWriteEopHandler, hparams, hmiss]
  refine (sameAnswer_require h _ _ _).bind_eq fun _ => (sameAnswer_payload h 3).bind_eq fun w3 =>
    (sameAnswer_payload h 2).bind_eq fun w2 => ?_
  refine (sameAnswer_require h _ _ _).bind_eq fun _ => (sameAnswer_require h _ _ _).bind_eq fun _ =>
    (sameAnswer_require h _ _ _).bind_eq fun _ => ?_
  exact (sameAnswer_eopData h _).bind_eq fun d => (sameAnswer_writeBack h _ d).bind fun _ _ hab =>
    sameAnswer_confirmInterrupt hab _

end

/-! ## The step -/

/-- Two outcomes agree: next states that agree, or the same fault, or the same refusal. -/
inductive SameOutcome : Host.Outcome State Fault Refusal → Host.Outcome State Fault Refusal → Prop where
  | next {t v : State} (h : AgreeButRegs t v) : SameOutcome (.next t) (.next v)
  | fault (f : Fault) : SameOutcome (.fault f) (.fault f)
  | refused (r : Refusal) : SameOutcome (.refused r) (.refused r)

theorem sameOutcome_finishPacket (i : Instr) (hdr : Word) {x y : Except Stop State} (h : SameAnswer AgreeButRegs x y) :
    SameOutcome (finishPacket i hdr x) (finishPacket i hdr y) := by
  cases h with
  | ok hab => exact .next (hab.advance _)
  | raised cause value hab => exact .next (hab.raise cause hdr value _)
  | stuck f => exact .fault f

/-- A packet whose handler keeps the relation keeps it. -/
theorem sameOutcome_runPacket (i : Instr) (handler : State → Except Stop State)
    (hhandler : ∀ {s u : State}, AgreeButRegs s u → SameAnswer AgreeButRegs (handler s) (handler u)) {s u : State}
    (h : AgreeButRegs s u) : SameOutcome (runPacket i handler s) (runPacket i handler u) := by
  have hover : u.overruns i.count = s.overruns i.count := h.congr (·.overruns i.count) fun _ _ _ => rfl
  have hheader : u.headerWord = s.headerWord := h.congr State.headerWord fun _ _ _ => rfl
  rw [runPacket, runPacket, hover, hheader]
  split
  · exact .next (h.raise _ _ _ _)
  · exact sameOutcome_finishPacket i _ (hhandler (h.emitPacket i))

theorem sameOutcome_exec (i : Instr) {s u : State} (h : AgreeButRegs s u) : SameOutcome (exec i s) (exec i u) := by
  cases i with
  | drawIndex2 c => exact sameOutcome_runPacket _ _ (sameAnswer_drawIndex2Handler · c) h
  | indexType c => exact sameOutcome_runPacket _ _ (sameAnswer_indexTypeHandler · c) h
  | drawIndexAuto c => exact sameOutcome_runPacket _ _ (sameAnswer_drawIndexAutoHandler · c) h
  | eventWriteEop c => exact sameOutcome_runPacket _ _ (sameAnswer_eventWriteEopHandler · c) h
  | setContextReg c => exact sameOutcome_runPacket _ _ (sameAnswer_setRegHandler · .ctx c) h
  | setShReg c => exact sameOutcome_runPacket _ _ (sameAnswer_setRegHandler · .sh c) h
  | setUconfigReg c => exact sameOutcome_runPacket _ _ (sameAnswer_setRegHandler · .uc c) h
  | _ => exact sameOutcome_runPacket _ _ .ok h

theorem sameOutcome_step {s u : State} (h : AgreeButRegs s u) : SameOutcome (step s) (step u) := by
  have hfetch : u.fetchHeader = s.fetchHeader := h.congr State.fetchHeader fun _ _ _ => rfl
  rw [step, step, hfetch]
  cases s.fetchHeader with
  | error f => exact .fault f
  | ok hdr =>
    cases hd : decodeHeader hdr with
    | error r =>
      simp only [hd]
      exact .next (h.raiseReject hdr r)
    | ok i =>
      simp only [hd]
      exact sameOutcome_exec i h

/-- Settles O30: the two outcomes agree, so the second is a next state or a fault as the first is. -/
theorem registersDoNotSteerTheDecoder : Obligations.RegistersDoNotSteerTheDecoder := by
  unfold Obligations.RegistersDoNotSteerTheDecoder
  intro s u h
  have hsame := sameOutcome_step h
  refine ⟨fun t ht => ?_, fun f hf => ?_⟩
  · rw [ht] at hsame
    generalize step u = y at hsame
    cases hsame with
    | next hv => exact ⟨_, rfl, hv⟩
  · rw [hf] at hsame
    generalize step u = y at hsame
    cases hsame
    rfl

end Sys2Proof.Machine

/-! SUPPORT. Accesses that are not admitted (20_memory.md R52): the first one that a step would make in the handler's
order is the one it is stuck at, and there is no next state. -/

namespace Sys2Proof.Machine

/-! ## Register writes and draws -/

/-- The first word that is not admitted of those a block read asks for. -/
theorem payloadBlock_stuck (s : State) (first n k : Nat) (hk : k < n)
    (hbefore : ∀ j, j < k → s.admits (s.packetAddr (first + j)) 4 = true)
    (hstuck : s.admits (s.packetAddr (first + k)) 4 = false) :
    s.payloadBlock first n = .error (.stuck (.notAdmitted (s.packetAddr (first + k)) 4)) := by
  have hfind : (List.range n).find? (fun j => !s.admits (s.packetAddr (first + j)) 4) = some k := by
    rw [List.find?_range_eq_some]
    exact ⟨by simp [hstuck], List.mem_range.mpr hk, fun j hj => by simp [hbefore j hj]⟩
  rw [State.payloadBlock, hfind]

/-- A packet that fits is stuck where its handler is. -/
theorem runPacket_stuck_of_fits {i : Instr} {handler : State → Except Stop State} {s : State} {f : Fault}
    (hfits : s.Fits i) (h : handler (s.emitPacket i) = .error (.stuck f)) : runPacket i handler s = .fault f :=
  runPacket_stuck i handler s f ((fits_iff s i).mp hfits) h

/-- `P(1)` is read first of all. -/
theorem setRegHandler_stuck_first (r : Region) (count : BitVec 14) (s : State) (hcount : 1 ≤ count.toNat)
    (h1 : s.admits (s.packetAddr 1) 4 = false) :
    setRegHandler r count s = .error (.stuck (.notAdmitted (s.packetAddr 1) 4)) := by
  simp only [setRegHandler, require_ok _ _ _ _ ((hasWords_eq_true count 1).mpr hcount), payload_stuck s 1 h1, bind,
    Except.bind]

theorem indexTypeHandler_stuck (count : BitVec 14) (s : State) (hcount : 1 ≤ count.toNat)
    (h1 : s.admits (s.packetAddr 1) 4 = false) :
    indexTypeHandler count s = .error (.stuck (.notAdmitted (s.packetAddr 1) 4)) := by
  simp only [indexTypeHandler, require_ok _ _ _ _ ((hasWords_eq_true count 1).mpr hcount), payload_stuck s 1 h1, bind,
    Except.bind]

section
variable (count : BitVec 14) (s : State) (k : Nat) (ha : s.PayloadAdmitted (k - 1))
include ha

/-- Before word `k`, the words are read without being stuck. -/
theorem payload_ok_before (j : Nat) (h1 : 1 ≤ j) (hj : j < k) : s.payload j = .ok (s.packetWord j) :=
  payload_ok s j (ha j h1 (by omega))

variable (hstuck : s.admits (s.packetAddr k) 4 = false)
include hstuck

/-- The data words are read, in increasing order, once the range is known to be inside the region. -/
theorem setRegHandler_stuck_data (r : Region)
    (hin : (s.packetWord 1).toNat % 2 ^ 16 + (count.toNat - 1) ≤ regionCap s.params r) (h2 : 2 ≤ k)
    (hk : k ≤ count.toNat) : setRegHandler r count s = .error (.stuck (.notAdmitted (s.packetAddr k) 4)) := by
  rw [← regOffset_toNat] at hin
  obtain ⟨j, rfl⟩ := Nat.exists_eq_add_of_le h2
  have hblock := payloadBlock_stuck s 2 (count.toNat - 1) j (by omega) (fun l hl => ha (2 + l) (by omega) (by omega))
    hstuck
  simp only [setRegHandler, require_ok _ _ _ _ ((hasWords_eq_true count 1).mpr (by omega)),
    payload_ok_before s _ ha 1 le_rfl (by omega), require_ok _ _ _ _ ((insideRegion_eq_true _ _ _ _).mpr hin), hblock,
    bind, Except.bind]

theorem drawIndex2Handler_stuck (hcount : 5 ≤ count.toNat) (h1 : 1 ≤ k) (hk : k ≤ 5) :
    drawIndex2Handler count s = .error (.stuck (.notAdmitted (s.packetAddr k) 4)) := by
  have hbefore := payload_ok_before s k ha
  have hat := payload_stuck s k hstuck
  interval_cases k <;>
    simp [drawIndex2Handler, require_ok _ _ _ _ ((hasWords_eq_true count 5).mpr hcount), hbefore, hat, bind,
      Except.bind]

theorem drawIndexAutoHandler_stuck (hcount : 2 ≤ count.toNat) (h1 : 1 ≤ k) (hk : k ≤ 2) :
    drawIndexAutoHandler count s = .error (.stuck (.notAdmitted (s.packetAddr k) 4)) := by
  have hbefore := payload_ok_before s k ha
  have hat := payload_stuck s k hstuck
  interval_cases k <;>
    simp [drawIndexAutoHandler, require_ok _ _ _ _ ((hasWords_eq_true count 2).mpr hcount), hbefore, hat, bind,
      Except.bind]

end

/-! ## EVENT_WRITE_EOP -/

theorem eopData_stuck_low (s : State) (dsel : BitVec 3) (h4 : s.admits (s.packetAddr 4) 4 = false) :
    s.eopData dsel = .error (.stuck (.notAdmitted (s.packetAddr 4) 4)) := by
  simp only [State.eopData, payload_stuck s 4 h4, bind, Except.bind]

theorem eopData_stuck_high (s : State) (dsel : BitVec 3) (h4 : s.admits (s.packetAddr 4) 4 = true) (hsel : dsel ≠ 1#3)
    (h5 : s.admits (s.packetAddr 5) 4 = false) :
    s.eopData dsel = .error (.stuck (.notAdmitted (s.packetAddr 5) 4)) := by
  simp only [State.eopData, payload_ok s 4 h4, if_neg hsel, payload_stuck s 5 h5, bind, Except.bind]

theorem writeBack_stuck (s : State) (addr : DWord) (d : StoreData) (h : s.admits addr.toNat d.width = false) :
    s.writeBack addr d = .error (.stuck (.notAdmitted addr.toNat d.width)) := by
  rw [← StoreData.bytes_length] at h ⊢
  simp only [State.writeBack, State.storeBytes, h, Bool.false_eq_true, if_false, bind, Except.bind]

/-- `P(3)` is read first, and then `P(2)` (R170). -/
theorem eventWriteEopHandler_stuck_control (count : BitVec 14) (s : State) (hcount : 5 ≤ count.toNat)
    (h3 : s.admits (s.packetAddr 3) 4 = false) :
    eventWriteEopHandler count s = .error (.stuck (.notAdmitted (s.packetAddr 3) 4)) := by
  simp only [eventWriteEopHandler, require_ok _ _ _ _ ((hasWords_eq_true count 5).mpr hcount), payload_stuck s 3 h3,
    bind, Except.bind]

theorem eventWriteEopHandler_stuck_address (count : BitVec 14) (s : State) (hcount : 5 ≤ count.toNat)
    (h3 : s.admits (s.packetAddr 3) 4 = true) (h2 : s.admits (s.packetAddr 2) 4 = false) :
    eventWriteEopHandler count s = .error (.stuck (.notAdmitted (s.packetAddr 2) 4)) := by
  simp only [eventWriteEopHandler, require_ok _ _ _ _ ((hasWords_eq_true count 5).mpr hcount), payload_ok s 3 h3,
    payload_stuck s 2 h2, bind, Except.bind]

section
variable {s : State} {count : BitVec 14} {addr w v : Nat} {data : StoreData}

/-- A packet that passes its checks reads its data words next, then writes them back (R176). -/
theorem EopChecked.handler_eq (h : EopChecked s count addr w) :
    eventWriteEopHandler count (s.emitPacket (.eventWriteEop count)) =
      (s.emitPacket (.eventWriteEop count)).eopData (dataSel (s.packetWord 3)) >>= fun d =>
        (s.emitPacket (.eventWriteEop count)).writeBack s.eopAddr d >>= fun t =>
          t.confirmInterrupt (intSel (s.packetWord 3)) := by
  refine eventWriteEopHandler_checked count (s.emitPacket (.eventWriteEop count))
    ((hasWords_eq_true count 5).mpr h.words) (payload_ok _ 2 h.addressLow) (payload_ok _ 3 h.control)
    ((validDataSel_dataSel _).mpr (h.select.imp And.left And.left)) ?aligned ?clear
  case aligned =>
    change isAligned s.eopAddr (eopWidth (dataSel (s.packetWord 3))) = true
    rw [isAligned_eq_true, h.eopAddr_eq, h.eopWidth_eq]
    exact h.aligned
  case clear =>
    change s.missesStream s.eopAddr.toNat (eopWidth (dataSel (s.packetWord 3))) = true
    rw [missesStream_eq_true, h.eopAddr_eq, h.eopWidth_eq]
    exact h.clear

theorem EopChecked.exec_stuck_low (h : EopChecked s count addr w) (h4 : s.admits (s.packetAddr 4) 4 = false) :
    exec (.eventWriteEop count) s = .fault (.notAdmitted (s.packetAddr 4) 4) :=
  runPacket_stuck_of_fits h.fits (by rw [h.handler_eq, eopData_stuck_low (s.emitPacket _) _ h4]; rfl)

/-- `P(5)` is read for the 8-byte write (R180). -/
theorem EopChecked.exec_stuck_high (h : EopChecked s count addr w) (h4 : s.admits (s.packetAddr 4) 4 = true)
    (hw : w = 8) (h5 : s.admits (s.packetAddr 5) 4 = false) :
    exec (.eventWriteEop count) s = .fault (.notAdmitted (s.packetAddr 5) 4) := by
  have hsel : dataSel (s.packetWord 3) ≠ 1#3 := mt h.dataSel_eq_one_iff.mp (by omega)
  exact runPacket_stuck_of_fits h.fits (by rw [h.handler_eq, eopData_stuck_high (s.emitPacket _) _ h4 hsel h5]; rfl)

/-- With its data words read, all that is left to be admitted is the target. -/
theorem EopLoaded.exec_stuck_target (h : EopLoaded s count addr w v data) (ht : s.admits addr w = false) :
    exec (.eventWriteEop count) s = .fault (.notAdmitted addr w) := by
  have hdata : (s.emitPacket (.eventWriteEop count)).eopData (dataSel (s.packetWord 3)) = .ok data :=
    (eopData_ok (s.emitPacket (.eventWriteEop count)) h.dataLow h.dataHigh).trans (congrArg Except.ok h.eopStore_eq)
  have hwrite := writeBack_stuck (s.emitPacket (.eventWriteEop count)) s.eopAddr data
    (by rw [h.eopAddr_eq, h.width_eq]; exact ht)
  rw [h.eopAddr_eq, h.width_eq] at hwrite
  refine runPacket_stuck_of_fits h.fits ?_
  rw [h.handler_eq, hdata]
  simp only [hwrite, bind, Except.bind]

end

/-! ## The step -/

theorem step_stuck_at_header (s : State) (hp : s.phase = .scanning) (ha : s.admits (s.packetAddr 0) 4 = false) :
    step s = .fault (.notAdmitted (s.packetAddr 0) 4) := by
  have hfetch : s.fetchHeader = .error (.notAdmitted (s.packetAddr 0) 4) := by simp [State.fetchHeader, hp, ha]
  simp only [step, hfetch]

/-- Settles O8: in the order in which a step accesses memory. -/
theorem unadmittedAccessesAreStuck : Obligations.UnadmittedAccessesAreStuck := by
  unfold Obligations.UnadmittedAccessesAreStuck
  refine ⟨step_stuck_at_header, fun s count row k hrow hfits hcount h1 hk ha hstuck => ?payload,
    fun s count row k hrow hfits hin h2 hk ha hstuck => ?data,
    fun s count hcount hfits => ⟨fun h3 => ?control, fun h3 h2 => ?address⟩,
    fun s count addr w h => ⟨h.exec_stuck_low, h.exec_stuck_high⟩, fun s count addr w v data h => h.exec_stuck_target⟩
  case payload =>
    simp only [List.mem_cons, List.not_mem_nil, or_false] at hrow
    rcases hrow with rfl | rfl | rfl | rfl | rfl | rfl
    case inr.inr.inr.inr.inl =>
      exact runPacket_stuck_of_fits hfits (drawIndex2Handler_stuck count _ k ha hstuck hcount h1 hk)
    case inr.inr.inr.inr.inr =>
      exact runPacket_stuck_of_fits hfits (drawIndexAutoHandler_stuck count _ k ha hstuck hcount h1 hk)
    all_goals obtain rfl : k = 1 := le_antisymm hk h1
    · exact runPacket_stuck_of_fits hfits (setRegHandler_stuck_first .ctx count _ hcount hstuck)
    · exact runPacket_stuck_of_fits hfits (setRegHandler_stuck_first .sh count _ hcount hstuck)
    · exact runPacket_stuck_of_fits hfits (setRegHandler_stuck_first .uc count _ hcount hstuck)
    · exact runPacket_stuck_of_fits hfits (indexTypeHandler_stuck count _ hcount hstuck)
  case data =>
    change row ∈ [Region.ctx, .sh, .uc].map fun r => ((Handler.setReg r).instr count, regionCap s.params r) at hrow
    obtain ⟨r, -, rfl⟩ := List.mem_map.mp hrow
    rw [exec_setReg]
    exact runPacket_stuck_of_fits hfits (setRegHandler_stuck_data count (s.emitPacket _) k ha hstuck r hin h2 hk)
  case control => exact runPacket_stuck_of_fits hfits (eventWriteEopHandler_stuck_control count _ hcount h3)
  case address => exact runPacket_stuck_of_fits hfits (eventWriteEopHandler_stuck_address count _ hcount h3 h2)

end Sys2Proof.Machine
